-- ==== Sys2Proof/Word.lean ====
section
/-! DEFINITION. The word types of LMCORE and its two command ports (spec 00_scope.md R6, R7; 20_memory.md R44). -/

namespace Sys2Proof

/-- A byte of a port, of the wire or of a payload. -/
abbrev Byte := BitVec 8

/-- A 16-bit operand or queue index (R4, the queue index width). -/
abbrev Half := BitVec 16

/-- A 32-bit header word, operand word, table entry, checksum or result. -/
abbrev Word := BitVec 32

/-- The two command ports (R44): `pp` is the producer port of the interrupt context, `cp` the consumer
port of the task context. -/
inductive Port where
  | pp
  | cp
  deriving DecidableEq, Repr

/-- The port that is not `p`. -/
def Port.other : Port → Port
  | .pp => .cp
  | .cp => .pp

/-- A Boolean written to a 32-bit result: 1 for true, 0 for false (R7). -/
def boolWord (b : Bool) : Word := if b then 1#32 else 0#32

end Sys2Proof
end

