-- ==== Sys2Proof/Config.lean ====
section
/-! DEFINITION. The parameters of an LMCORE (spec 00_scope.md R4, R5) and the free values: what the spec leaves
unspecified, as constants without a body (assumption log 1, 2, 3, 4). -/

namespace Sys2Proof

/-- The three OPEN parameters of R4. DESIGN CHOICE (log 1): `State` carries them, so that a claim about every
state is a claim about every instance, and no step changes them. -/
structure Params where
  /-- MAX_PAYLOAD: bytes of every payload buffer. -/
  maxPayload : Nat
  /-- QSLOTS: Message slots of the backing store. -/
  qslots : Nat
  /-- POP_SPLIT: whether Q_POP takes two steps. -/
  popSplit : Bool
  deriving DecidableEq, Repr

/-- The ranges R4 gives the parameters. -/
abbrev Params.Legal (p : Params) : Prop :=
  p.maxPayload ≤ 255 ∧ 1 ≤ p.qslots ∧ p.qslots ≤ 65535

/-- The example instance LMCORE(MAX_PAYLOAD=8,QSLOTS=16,POP_SPLIT=0) of R5. -/
def Params.reference : Params := ⟨8, 16, false⟩

namespace Config

/-- An unspecified byte: byte `index` of draw `draw`. It stands for FB and SLOT at reset (R21, R27) and for the bytes of
a stored Message past its size (R27). DESIGN CHOICE (log 2, 3). -/
opaque freeByte : (draw index : Nat) → Byte

/-- An unspecified word: TBL at reset (R18). DESIGN CHOICE (log 2). -/
opaque freeWord : (draw index : Nat) → Word

/-- Whether the producer port moves first when both ports can move and the host has named no turn (R45 lets either).
DESIGN CHOICE (log 4). -/
opaque ppFirst : (draw : Nat) → Bool

end Config

end Sys2Proof
end

