-- ==== Sys2Proof/Syntax.lean ====
section
/-! DEFINITION. The commands of LMCORE, one constructor per row of the opcode map (spec 30_encoding.md R52,
spec/opcode_table.json), with the operands R52 and R58 give each. A length operand N or C is not written: it is the
length of the data (R60; DEDUCED, log 12). -/

namespace Sys2Proof

inductive Instr where
  /-- FEED: A = the received byte (R105). -/
  | feed (byte : Byte)
  /-- Q_PUSH: A = src, C = size = the payload's length, d = payload (R88). -/
  | qPush (src : Byte) (d : List Byte)
  /-- CRC_INIT (R70). -/
  | crcInit
  /-- CRC_COMPUTE: d = data, N its length (R73). -/
  | crcCompute (d : List Byte)
  /-- CRC_CONCAT: W = prior checksum, d = data (R74). -/
  | crcConcat (w : Word) (d : List Byte)
  /-- CRC_SELFCHECK: W = expected checksum, d = data (R75). -/
  | crcSelfcheck (w : Word) (d : List Byte)
  /-- CRC_VERIFY: d = data that ends with its own checksum (R76). -/
  | crcVerify (d : List Byte)
  /-- CRC_REFLECT: A = byte (R77). -/
  | crcReflect (byte : Byte)
  /-- Q_CREATE: N = capacity (R86). -/
  | qCreate (capacity : Half)
  /-- Q_ISEMPTY (R92). -/
  | qIsempty
  /-- Q_ISFULL (R93). -/
  | qIsfull
  /-- Q_USED (R94). -/
  | qUsed
  /-- Q_FREE (R95). -/
  | qFree
  /-- Q_CAPACITY (R96). -/
  | qCapacity
  /-- Q_POP (R89, R90). -/
  | qPop
  /-- Q_CLEAR (R97). -/
  | qClear
  /-- P_SETPRE: W = the four preamble bytes (R115). -/
  | pSetpre (w : Word)
  /-- P_BUILD: A = destination, B = source, d = payload, C its length (R117). -/
  | pBuild (dst src : Byte) (d : List Byte)
  /-- P_SEND: A = destination, B = source, d = payload, C its length (R118). -/
  | pSend (dst src : Byte) (d : List Byte)
  deriving DecidableEq, Repr

end Sys2Proof
end

