-- ==== Sys2Proof/WellFormed.lean ====
section
/-! DEFINITION. When a command can be written on a port: its data fits the length field of its format (spec
30_encoding.md R49, R50: C is 8 bits, N is 16). Every other operand fits by its type. -/

namespace Sys2Proof

/-- Data that a format FM command can carry: its length is C, 0..255. -/
abbrev fitsC (d : List Byte) : Bool := decide (d.length ≤ 255)

/-- Data that a format FL or FWL command can carry: its length is N, 0..65535. -/
abbrev fitsN (d : List Byte) : Bool := decide (d.length ≤ 65535)

/-- The check, as a Boolean. -/
def Instr.wellFormed : Instr → Bool
  | .feed _ => true
  | .qPush _ d => fitsC d
  | .crcInit => true
  | .crcCompute d => fitsN d
  | .crcConcat _ d => fitsN d
  | .crcSelfcheck _ d => fitsN d
  | .crcVerify d => fitsN d
  | .crcReflect _ => true
  | .qCreate _ => true
  | .qIsempty => true
  | .qIsfull => true
  | .qUsed => true
  | .qFree => true
  | .qCapacity => true
  | .qPop => true
  | .qClear => true
  | .pSetpre _ => true
  | .pBuild _ _ d => fitsC d
  | .pSend _ _ d => fitsC d

/-- A command that a port can carry. -/
abbrev WellFormed (i : Instr) : Prop := i.wellFormed = true

end Sys2Proof
end

