-- ==== Sys2Proof/Decode.lean ====
section
/-! DEFINITION. The command encoding (spec 30_encoding.md sections 1 to 3) and its byte order (20_memory.md R37): the
opcode map, the decoder of a port's byte stream, total and rejecting by name, and after it the encoder. -/

namespace Sys2Proof

/-! ### Byte order -/

/-- `LE32(v)` (R8): least significant byte first. -/
def le32 (v : Word) : List Byte :=
  [v.extractLsb' 0 8, v.extractLsb' 8 8, v.extractLsb' 16 8, v.extractLsb' 24 8]

/-- `fromLE32(s)` (R8), for any number of bytes: byte k stands at bits 8k+7..8k. -/
def fromLE32 : List Byte → Word
  | [] => 0
  | b :: rest => b.setWidth 32 ||| (fromLE32 rest <<< 8)

/-- The low and the high byte of a 16-bit length, as H[23:16] and H[31:24] carry N (R49). -/
def le16 (n : Half) : List Byte := [n.extractLsb' 0 8, n.extractLsb' 8 8]

/-! ### Header fields (R49) -/

/-- OP = H[7:0]. -/
def headerOp (h : Word) : Byte := h.extractLsb' 0 8
/-- A = H[15:8]. -/
def headerA (h : Word) : Byte := h.extractLsb' 8 8
/-- B = H[23:16]. -/
def headerB (h : Word) : Byte := h.extractLsb' 16 8
/-- C = H[31:24]. -/
def headerC (h : Word) : Byte := h.extractLsb' 24 8
/-- N = H[31:16], over B and C. -/
def headerN (h : Word) : Half := h.extractLsb' 16 16

/-! ### The formats and the opcode map -/

/-- The seven formats of R50. -/
inductive Format where
  | fn | fb | fl | fwl | fw | fq | fm
  deriving DecidableEq, Repr

/-- A row of the opcode map R52. -/
structure OpRow where
  op : Byte
  format : Format
  port : Port
  /-- Format FM reserves B for Q_PUSH alone (R50). -/
  reservesB : Bool
  deriving DecidableEq, Repr

/-- The opcode map R52, row for row. -/
def opcodeMap : List OpRow :=
  [ ⟨0x01, .fb, .pp, false⟩, ⟨0x02, .fm, .pp, true⟩ ] ++
  [ ⟨0x10, .fn, .cp, false⟩, ⟨0x11, .fl, .cp, false⟩, ⟨0x12, .fwl, .cp, false⟩,
    ⟨0x13, .fwl, .cp, false⟩, ⟨0x14, .fl, .cp, false⟩, ⟨0x15, .fb, .cp, false⟩ ] ++
  [ ⟨0x20, .fq, .cp, false⟩, ⟨0x21, .fn, .cp, false⟩, ⟨0x22, .fn, .cp, false⟩,
    ⟨0x23, .fn, .cp, false⟩, ⟨0x24, .fn, .cp, false⟩, ⟨0x25, .fn, .cp, false⟩,
    ⟨0x26, .fn, .cp, false⟩, ⟨0x27, .fn, .cp, false⟩ ] ++
  [ ⟨0x30, .fw, .cp, false⟩, ⟨0x31, .fm, .cp, false⟩, ⟨0x32, .fm, .cp, false⟩ ]

/-- The row of an opcode; none for an illegal one (R54). -/
def opRow (op : Byte) : Option OpRow := opcodeMap.find? fun r => r.op == op

/-- The trailer length a header announces (R51). -/
def trailerLen (f : Format) (h : Word) : Nat :=
  match f with
  | .fn => 0
  | .fb => 0
  | .fq => 0
  | .fl => (headerN h).toNat
  | .fwl => 4 + (headerN h).toNat
  | .fw => 4
  | .fm => (headerC h).toNat

/-- Whether every reserved header field of a row's format is zero (R50, R55). -/
def reservedZero (r : OpRow) (h : Word) : Bool :=
  match r.format with
  | .fn => headerA h == 0 && headerB h == 0 && headerC h == 0
  | .fw => headerA h == 0 && headerB h == 0 && headerC h == 0
  | .fb => headerB h == 0 && headerC h == 0
  | .fl => headerA h == 0
  | .fwl => headerA h == 0
  | .fq => headerA h == 0
  | .fm => !r.reservesB || headerB h == 0

/-- Operand assembly (R58): the command of opcode OP from its header and its whole trailer. -/
def assemble (h : Word) (trailer : List Byte) : Option Instr :=
  match (headerOp h).toNat with
  | 0x01 => some (.feed (headerA h))
  | 0x02 => some (.qPush (headerA h) trailer)
  | 0x10 => some .crcInit
  | 0x11 => some (.crcCompute trailer)
  | 0x12 => some (.crcConcat (fromLE32 (trailer.take 4)) (trailer.drop 4))
  | 0x13 => some (.crcSelfcheck (fromLE32 (trailer.take 4)) (trailer.drop 4))
  | 0x14 => some (.crcVerify trailer)
  | 0x15 => some (.crcReflect (headerA h))
  | 0x20 => some (.qCreate (headerN h))
  | 0x21 => some .qIsempty
  | 0x22 => some .qIsfull
  | 0x23 => some .qUsed
  | 0x24 => some .qFree
  | 0x25 => some .qCapacity
  | 0x26 => some .qPop
  | 0x27 => some .qClear
  | 0x30 => some (.pSetpre (fromLE32 (trailer.take 4)))
  | 0x31 => some (.pBuild (headerA h) (headerB h) trailer)
  | 0x32 => some (.pSend (headerA h) (headerB h) trailer)
  | _ => none

/-- Why a byte stream gives no command. -/
inductive DecodeError where
  /-- OP is not in the opcode map (R54). -/
  | illegalOpcode
  /-- A legal opcode of port `port` with a reserved field that is not zero (R55). -/
  | reservedNonzero (port : Port)
  /-- Fewer bytes than the header announces (R51); the host delivers the rest (R131). -/
  | partialCommand
  deriving DecidableEq, Repr

/-- The first command of a port's byte stream and the bytes after it (R48, R51, R54, R55, R58). A legal header waits for its whole
trailer (DESIGN CHOICE, log 5). -/
def decode : List Byte → Except DecodeError (Instr × List Byte)
  | b0 :: b1 :: b2 :: b3 :: rest =>
    let h := fromLE32 [b0, b1, b2, b3]
    match opRow (headerOp h) with
    | none => .error .illegalOpcode
    | some r =>
      let n := trailerLen r.format h
      if rest.length < n then .error .partialCommand
      else if reservedZero r h then
        match assemble h (rest.take n) with
        | some i => .ok (i, rest.drop n)
        | none => .error .illegalOpcode
      else .error (.reservedNonzero r.port)
  | _ => .error .partialCommand

/-- The only port on which a command is legal (R53). -/
def Instr.port : Instr → Port
  | .feed _ => .pp
  | .qPush _ _ => .pp
  | .crcInit => .cp
  | .crcCompute _ => .cp
  | .crcConcat _ _ => .cp
  | .crcSelfcheck _ _ => .cp
  | .crcVerify _ => .cp
  | .crcReflect _ => .cp
  | .qCreate _ => .cp
  | .qIsempty => .cp
  | .qIsfull => .cp
  | .qUsed => .cp
  | .qFree => .cp
  | .qCapacity => .cp
  | .qPop => .cp
  | .qClear => .cp
  | .pSetpre _ => .cp
  | .pBuild _ _ _ => .cp
  | .pSend _ _ _ => .cp

/-! ### The encoder -/

/-- The length of data as the 8-bit field C. -/
def lenC (d : List Byte) : Byte := BitVec.ofNat 8 d.length

/-- The length of data as the 16-bit field N. -/
def lenN (d : List Byte) : Half := BitVec.ofNat 16 d.length

/-- The port bytes of a command: header bytes OP, A, B, C (N over B and C) and then the trailer (R48 to R52). -/
def encode : Instr → List Byte
  | .feed b => [0x01, b, 0, 0]
  | .qPush src d => [0x02, src, 0, lenC d] ++ d
  | .crcInit => [0x10, 0, 0, 0]
  | .crcCompute d => [0x11, 0] ++ le16 (lenN d) ++ d
  | .crcConcat w d => [0x12, 0] ++ le16 (lenN d) ++ le32 w ++ d
  | .crcSelfcheck w d => [0x13, 0] ++ le16 (lenN d) ++ le32 w ++ d
  | .crcVerify d => [0x14, 0] ++ le16 (lenN d) ++ d
  | .crcReflect b => [0x15, b, 0, 0]
  | .qCreate n => [0x20, 0] ++ le16 n
  | .qIsempty => [0x21, 0, 0, 0]
  | .qIsfull => [0x22, 0, 0, 0]
  | .qUsed => [0x23, 0, 0, 0]
  | .qFree => [0x24, 0, 0, 0]
  | .qCapacity => [0x25, 0, 0, 0]
  | .qPop => [0x26, 0, 0, 0]
  | .qClear => [0x27, 0, 0, 0]
  | .pSetpre w => [0x30, 0, 0, 0] ++ le32 w
  | .pBuild dst src d => [0x31, dst, src, lenC d] ++ d
  | .pSend dst src d => [0x32, dst, src, lenC d] ++ d

/-! ### A row of the opcode table as port bytes -/

/-- The low `k` bytes of `w`, least significant byte first. -/
def leBytes : Nat → Nat → List Byte
  | 0, _ => []
  | k + 1, w => BitVec.ofNat 8 w :: leBytes k (w / 256)

/-- How many bytes the command that starts with these header bytes has; 4 where the opcode is illegal (R51). -/
def commandLen : List Byte → Nat
  | b0 :: b1 :: b2 :: b3 :: _ =>
    let h := fromLE32 [b0, b1, b2, b3]
    match opRow (headerOp h) with
    | none => 4
    | some r => 4 + trailerLen r.format h
  | _ => 4

/-- The port bytes of the table word `w` of `nbits` bits, every bit above them zero, up to the end of the command. -/
def tableBytes (nbits w : Nat) : List Byte :=
  let given := leBytes (nbits / 8) w
  let header := given ++ List.replicate (4 - given.length) 0
  header ++ List.replicate (commandLen header - header.length) 0

/-- The command that the decoder reads from a row of the opcode table. -/
def decodeTableWord (nbits w : Nat) : Option Instr :=
  match decode (tableBytes nbits w) with
  | .ok (i, _) => some i
  | .error _ => none

/-- The port that R53 gives the opcode of a table word; the consumer port for an illegal one. -/
def tablePort (nbits w : Nat) : Port :=
  match (tableBytes nbits w).head? with
  | none => .cp
  | some op =>
    match opRow op with
    | none => .cp
    | some r => r.port

end Sys2Proof
end

