-- ==== Sys2Proof/Machine/State.lean ====
section
/-! DEFINITION. The state of LMCORE as plain data (spec 10_state.md R15 to R29), the reasons a step can stop, and the
state after reset (70_reset_and_hazards.md R137). -/

namespace Sys2Proof.Machine

/-- STAGE, the parser's current stage (R20). Encodings 5 to 7 are never written and the type leaves them out
(DEDUCED, log 13). -/
inductive Stage where
  | pre | addr | size | pay | chk
  deriving DecidableEq, Repr

/-- The 3-bit encoding of STAGE (R20). -/
def Stage.code : Stage → BitVec 3
  | .pre => 0
  | .addr => 1
  | .size => 2
  | .pay => 3
  | .chk => 4

/-- The fault codes of R123. -/
inductive FaultCode where
  | illegalOpcode | reservedNonzero | wrongPort | crcNotInit
  | queueNotCreated | zeroCapacity | capacityTooLarge | pushSizeTooLarge
  deriving DecidableEq, Repr

/-- The byte that FAULT holds for a fault (R123). -/
def FaultCode.code : FaultCode → Byte
  | .illegalOpcode => 0x01
  | .reservedNonzero => 0x02
  | .wrongPort => 0x03
  | .crcNotInit => 0x04
  | .queueNotCreated => 0x05
  | .zeroCapacity => 0x06
  | .capacityTooLarge => 0x07
  | .pushSizeTooLarge => 0x08

/-- The status of a response (R59). -/
inductive Status where
  | ok | empty
  deriving DecidableEq, Repr

/-- The status byte: 0x00 = OK, 0x01 = EMPTY (R59). -/
def Status.code : Status → Byte
  | .ok => 0x00
  | .empty => 0x01

/-- What `respond(status, res, data)` returns to the port that issued the command (R59). -/
structure Response where
  status : Status
  res : Word
  data : List Byte
  deriving DecidableEq, Repr

/-- A Message (R27): `pay` has MAX_PAYLOAD bytes, of which only the first `size` have a specified value. -/
structure Message where
  src : Byte
  size : Byte
  pay : List Byte
  deriving DecidableEq, Repr

/-- The staging buffer FB (R21): `pay` has MAX_PAYLOAD bytes. -/
structure FrameBuf where
  pre : Vector Byte 4
  addr : Vector Byte 2
  size : Byte
  pay : List Byte
  chk : Vector Byte 4
  deriving DecidableEq, Repr

/-- The whole state. The first group is R15's table, element for element; the second is what the spec's host interface
holds outside the block (R44, R48, R59, R131) and the model's own bookkeeping (assumption log 1 to 7). -/
structure State where
  /-- FAULT (R16): 0x00, or the code of the first fault. -/
  fault : Byte
  /-- CRCV (R17): TBL holds the table. -/
  crcv : Bool
  /-- TBL (R18). -/
  tbl : Vector Word 256
  /-- PRE (R19): the expected preamble, PRE[0] first on the wire. -/
  pre : Vector Byte 4
  /-- STAGE (R20). -/
  stage : Stage
  /-- FB (R21). -/
  fb : FrameBuf
  /-- OFF (R22). -/
  off : Byte
  /-- QCAP (R23): 0 means no queue. -/
  qcap : Half
  /-- QRD (R24). -/
  qrd : Half
  /-- QWR (R25). -/
  qwr : Half
  /-- QFULL (R26). -/
  qfull : Bool
  /-- SLOT (R27): QSLOTS Messages. -/
  slots : List Message
  /-- POPPEND (R28) and the Message that R90 holds for step 2: POPPEND = 1 exactly when a Message is held
  (DEDUCED, log 11). -/
  popHeld : Option Message
  /-- TX (R29): every byte handed to the transport since reset, first byte first. -/
  tx : List Byte
  /-- MODEL'S OWN (log 1): the parameters of this instance (R4). -/
  params : Params
  /-- MODEL'S OWN (log 5): bytes the host has delivered to the producer port and the block has not taken. -/
  ppIn : List Byte
  /-- MODEL'S OWN (log 5): the same for the consumer port. -/
  cpIn : List Byte
  /-- MODEL'S OWN (log 6): responses given to the producer port since reset, oldest first (R59). -/
  ppResp : List Response
  /-- MODEL'S OWN (log 6): responses given to the consumer port since reset, oldest first. -/
  cpResp : List Response
  /-- MODEL'S OWN (log 4): which port moves first each time both can. -/
  turns : List Port
  /-- MODEL'S OWN (log 7): the host asserts reset (R131, R137). -/
  rst : Bool
  /-- MODEL'S OWN (log 2, 3, 4): how many draws of free values have been made. -/
  draws : Nat
  deriving DecidableEq, Repr

/-- Why the machine stops. -/
inductive Fault where
  /-- Raised by `step` alone, on every step while FAULT holds `code`, which is not zero, and reset is not asserted: no step of
  the block is enabled (R124, log 14). Safe: the spec stops the block there too. -/
  | stuck (code : Byte)
  deriving DecidableEq, Repr

/-- Why a step has no meaning. -/
inductive Refusal where
  /-- An instruction without a meaning yet, by its mnemonic; raised by `exec`'s arms alone, and no arm is left that does. -/
  | notModelled (mnemonic : String)
  /-- Raised by `step` alone, when no port can move and a port holds fewer bytes than its header announces: the host never
  sends a partial command (R131, 93 U24, log 5). Safe: the spec gives the case no move. -/
  | partialCommand
  deriving DecidableEq, Repr

/-- A Message slot with unspecified contents (R27), from draw `k`. -/
def freeMessage (p : Params) (k slot : Nat) : Message :=
  { src := Config.freeByte k (1000 + 257 * slot)
    size := Config.freeByte k (1001 + 257 * slot)
    pay := (List.range p.maxPayload).map fun j => Config.freeByte k (1002 + 257 * slot + j) }

/-- A staging buffer with unspecified contents (R21), from draw `k`. -/
def freeFrameBuf (p : Params) (k : Nat) : FrameBuf :=
  { pre := #v[Config.freeByte k 0, Config.freeByte k 1, Config.freeByte k 2, Config.freeByte k 3]
    addr := #v[Config.freeByte k 4, Config.freeByte k 5]
    size := Config.freeByte k 6
    pay := (List.range p.maxPayload).map fun j => Config.freeByte k (11 + j)
    chk := #v[Config.freeByte k 7, Config.freeByte k 8, Config.freeByte k 9, Config.freeByte k 10] }

/-- A table with unspecified contents (R18), from draw `k`. -/
def freeTable (k : Nat) : Vector Word 256 :=
  ⟨⟨(List.range 256).map fun i => Config.freeWord k i⟩, by simp⟩

/-- The default preamble `AA BB CC DD` (R19). -/
def defaultPreamble : Vector Byte 4 := #v[0xAA, 0xBB, 0xCC, 0xDD]

/-- Every element at its reset value (R137), for any instance: what R137 calls unspecified comes from draw `k`. `turns` is
the host's, and reset leaves it (log 4). -/
def State.resetOf (p : Params) (turns : List Port) (k : Nat) : State :=
  { fault := 0x00#8
    crcv := false
    tbl := freeTable k
    pre := defaultPreamble
    stage := .pre
    fb := freeFrameBuf p k
    off := 0#8
    qcap := 0#16
    qrd := 0#16
    qwr := 0#16
    qfull := false
    slots := (List.range p.qslots).map (freeMessage p k)
    popHeld := none
    tx := []
    params := p
    ppIn := []
    cpIn := []
    ppResp := []
    cpResp := []
    turns := turns
    rst := false
    draws := k + 1 }

/-- The machine right after reset: the example instance of R5, with nothing delivered to a port. -/
def State.reset : State := State.resetOf Params.reference [] 0

/-- POPPEND (R28). -/
def State.poppend (s : State) : Bool := s.popHeld.isSome

end Sys2Proof.Machine
end

