-- ==== Sys2Proof/Machine/Ops.lean ====
section
/-! DEFINITION. The operations of the spec's pseudocode over the state (spec 00_scope.md R9): reading and writing slots,
appending to TX, responding, raising a fault, which is the one exception of the block, and reset, the only way out of it. -/

namespace Sys2Proof.Machine

/-- What the statements of a command leave: a state, or the fault they raise. -/
abbrev Result := Except FaultCode State

namespace State

/-- The bytes pending on a port. -/
def portIn (s : State) : Port → List Byte
  | .pp => s.ppIn
  | .cp => s.cpIn

/-- The responses given to a port. -/
def portResp (s : State) : Port → List Response
  | .pp => s.ppResp
  | .cp => s.cpResp

/-- The port's pending bytes replaced. -/
def setPortIn (s : State) (p : Port) (bs : List Byte) : State :=
  match p with
  | .pp => { s with ppIn := bs }
  | .cp => { s with cpIn := bs }

/-- `respond(status, res, data)` to a port (R9, R59). -/
def respond (s : State) (p : Port) (status : Status) (res : Word) (data : List Byte) : State :=
  match p with
  | .pp => { s with ppResp := s.ppResp ++ [⟨status, res, data⟩] }
  | .cp => { s with cpResp := s.cpResp ++ [⟨status, res, data⟩] }

/-- Fault entry (R124) on the state before the faulting command: only FAULT changes, and only from 0x00. There is no
handler, no vector and no saved state; the return from a fault is reset alone. -/
def takeFault (s : State) (c : FaultCode) : State :=
  if s.fault = 0x00#8 then { s with fault := c.code } else s

/-- Reset (R137), with the next draw for what it leaves unspecified. -/
def takeReset (s : State) : State := State.resetOf s.params s.turns s.draws

/-- `SlotRead(i)` (R9). An index past SLOT stands in no reachable state (R43); it reads as an unspecified Message
(DESIGN CHOICE, log 10). -/
def slotRead (s : State) (i : Half) : Message :=
  s.slots[i.toNat]?.getD (freeMessage s.params s.draws i.toNat)

/-- `SlotWrite(i, m)` (R9), the whole Message at once (R38). -/
def slotWrite (s : State) (i : Half) (m : Message) : State :=
  { s with slots := s.slots.set i.toNat m }

/-- `TxAppend(bytes)` (R9). -/
def txAppend (s : State) (bytes : List Byte) : State := { s with tx := s.tx ++ bytes }

end State

/-- A command ends: in the state its statements leave, or, when they raise a fault, in the state before it with the fault
taken (R124: the fault is precise). -/
def finish (s : State) : Result → Host.Outcome State Fault Refusal
  | .ok t => .next t
  | .error c => .next (s.takeFault c)

/-- The guard of every queue operation (R87, R91). -/
def requireQueue (s : State) (r : Result) : Result :=
  if s.qcap = 0#16 then .error .queueNotCreated else r

/-- The guard of every operation that needs TBL (R17). -/
def requireCrc (s : State) (r : Result) : Result :=
  if s.crcv then r else .error .crcNotInit

end Sys2Proof.Machine
end

