-- ==== Sys2Proof/Machine/Operands.lean ====
section
/-! DEFINITION. The operand forms of the commands and the Messages they make (spec 10_state.md R27, 20_memory.md R37,
41_queue.md R88, R89, 42_parser.md R108, R116). -/

namespace Sys2Proof.Machine

/-- The four preamble bytes of an operand word: `PRE[k] = W[8k+7:8k]` (R37, R115). -/
def preambleOf (w : Word) : Vector Byte 4 :=
  #v[w.extractLsb' 0 8, w.extractLsb' 8 8, w.extractLsb' 16 8, w.extractLsb' 24 8]

/-- The bytes of a Message past its size: unspecified (R27), from draw `k`. -/
def freeTail (k n : Nat) : List Byte := (List.range n).map (Config.freeByte k)

/-- A Message of MAX_PAYLOAD payload bytes, the given ones and then unspecified ones (R88, R112). -/
def makeMessage (s : State) (src size : Byte) (d : List Byte) : Message :=
  { src := src, size := size, pay := d ++ freeTail s.draws (s.params.maxPayload - d.length) }

/-- The data Q_POP returns: `[m.src, m.size] ‖ m.pay[0..m.size)` (R89). -/
def Message.view (m : Message) : List Byte := m.src :: m.size :: m.pay.take m.size.toNat

/-- `min(n, MAX_PAYLOAD)` (R108, R116). -/
def clamp (s : State) (n : Nat) : Nat := min n s.params.maxPayload

end Sys2Proof.Machine
end

