-- ==== Sys2Proof/Machine/Flags.lean ====
section
/-! DEFINITION. The queue's index and flag computations (spec 41_queue.md R87, R92, R94, R95). -/

namespace Sys2Proof.Machine

/-- `(i + 1) mod capacity`, the advance of an index (R87, R89). -/
def advance (i cap : Half) : Half := BitVec.ofNat 16 ((i.toNat + 1) % cap.toNat)

/-- `Empty(S) = (S.QFULL == 0 and S.QRD == S.QWR)` (R92). -/
def State.isEmpty (s : State) : Bool := !s.qfull && s.qrd == s.qwr

/-- `Used(S)` (R94). -/
def State.used (s : State) : Nat :=
  if s.qfull then s.qcap.toNat else (s.qwr.toNat + s.qcap.toNat - s.qrd.toNat) % s.qcap.toNat

/-- `S.QCAP - Used(S)` (R95). -/
def State.free (s : State) : Nat := s.qcap.toNat - s.used

end Sys2Proof.Machine
end

