-- ==== Sys2Proof/Machine/Crc.lean ====
section
/-! DEFINITION. The CRC unit (spec 40_crc.md): the table, the two computations, and the meanings of CRC_INIT,
CRC_COMPUTE, CRC_CONCAT, CRC_SELFCHECK, CRC_VERIFY and CRC_REFLECT. -/

namespace Sys2Proof.Machine

/-- One iteration of the table construction (R67). -/
def crcShift (c : Word) : Word :=
  if c.getLsbD 0 then (c >>> 1) ^^^ 0xEDB88320#32 else c >>> 1

/-- `CrcTableEntry(i)` (R67), from i itself (R68). -/
def crcTableEntry (i : Byte) : Word := Nat.repeat crcShift 8 (i.setWidth 32)

/-- The table CRC_INIT writes: `TBL[i] = CrcTableEntry(i)` (R18, R70). -/
def crcTable : Vector Word 256 :=
  ⟨⟨(List.range 256).map fun i => crcTableEntry (BitVec.ofNat 8 i)⟩, by simp⟩

/-- `CrcStep(c, b)` (R71) with one table read. -/
def crcStep (tbl : Vector Word 256) (c : Word) (b : Byte) : Word :=
  let i : Byte := (c ^^^ b.setWidth 32).extractLsb' 0 8
  tbl[i.toNat] ^^^ (c >>> 8)

/-- The steps of R71 and R72 over a byte sequence. -/
def crcRun (tbl : Vector Word 256) (c : Word) (d : List Byte) : Word := d.foldl (crcStep tbl) c

/-- `CrcCompute(d)` (R71). -/
def crcCompute (tbl : Vector Word 256) (d : List Byte) : Word := crcRun tbl 0xFFFFFFFF#32 d ^^^ 0xFFFFFFFF#32

/-- `CrcConcat(p, d)` (R72). -/
def crcConcat (tbl : Vector Word 256) (p : Word) (d : List Byte) : Word :=
  crcRun tbl (p ^^^ 0xFFFFFFFF#32) d ^^^ 0xFFFFFFFF#32

/-- CRC_INIT (R70). -/
def execCrcInit (s : State) : Host.Outcome State Fault Refusal :=
  .next ({ s with tbl := crcTable, crcv := true }.respond .cp .ok 0#32 [])

/-- CRC_COMPUTE (R73). -/
def execCrcCompute (d : List Byte) (s : State) : Host.Outcome State Fault Refusal :=
  finish s (requireCrc s (.ok (s.respond .cp .ok (crcCompute s.tbl d) [])))

/-- CRC_CONCAT (R74). -/
def execCrcConcat (w : Word) (d : List Byte) (s : State) : Host.Outcome State Fault Refusal :=
  finish s (requireCrc s (.ok (s.respond .cp .ok (crcConcat s.tbl w d) [])))

/-- CRC_SELFCHECK (R75). -/
def execCrcSelfcheck (w : Word) (d : List Byte) (s : State) : Host.Outcome State Fault Refusal :=
  finish s (requireCrc s (.ok (s.respond .cp .ok (boolWord (crcCompute s.tbl d == w)) [])))

/-- What CRC_VERIFY reports (R76): the last four bytes are the LE32 checksum of the bytes before them. -/
def crcVerifies (tbl : Vector Word 256) (d : List Byte) : Bool :=
  if d.length < 4 then false
  else crcCompute tbl (d.take (d.length - 4)) == fromLE32 (d.drop (d.length - 4))

/-- CRC_VERIFY (R76). -/
def execCrcVerify (d : List Byte) (s : State) : Host.Outcome State Fault Refusal :=
  finish s (requireCrc s (.ok (s.respond .cp .ok (boolWord (crcVerifies s.tbl d)) [])))

/-- `Reflect8(b)` (R77): bit k of the result is bit 7-k of `b`. -/
def reflect8 (b : Byte) : Byte := b.reverse

/-- CRC_REFLECT (R77): it reads neither CRCV nor TBL. -/
def execCrcReflect (b : Byte) (s : State) : Host.Outcome State Fault Refusal :=
  .next (s.respond .cp .ok ((reflect8 b).setWidth 32) [])

end Sys2Proof.Machine
end

