-- ==== Sys2Proof/Machine/Queue.lean ====
section
/-! DEFINITION. The queue unit (spec 41_queue.md): the push primitive and the meanings of Q_CREATE, Q_PUSH, Q_POP,
Q_ISEMPTY, Q_ISFULL, Q_USED, Q_FREE, Q_CAPACITY and Q_CLEAR. -/

namespace Sys2Proof.Machine

/-- `QueuePush(m)` (R87). A stored Message uses up the draw its unspecified bytes came from. -/
def queuePush (s : State) (m : Message) : Result :=
  requireQueue s <|
    if s.qfull then .ok s
    else
      let w := advance s.qwr s.qcap
      .ok { s.slotWrite s.qwr m with qwr := w, qfull := s.qrd == w, draws := s.draws + 1 }

/-- Q_CREATE (R86). -/
def execQCreate (n : Half) (s : State) : Host.Outcome State Fault Refusal :=
  finish s <|
    if n = 0#16 then .error .zeroCapacity
    else if s.params.qslots < n.toNat then .error .capacityTooLarge
    else .ok ({ s with qcap := n, qrd := 0#16, qwr := 0#16, qfull := false }.respond .cp .ok 0#32 [])

/-- Q_PUSH (R88). -/
def execQPush (src : Byte) (d : List Byte) (s : State) : Host.Outcome State Fault Refusal :=
  finish s <|
    if s.params.maxPayload < d.length then .error .pushSizeTooLarge
    else (queuePush s (makeMessage s src (lenC d) d)).map fun t => t.respond .pp .ok 0#32 []

/-- The move of the read index that Q_POP and step 1 of a split Q_POP share (R89, R90). -/
def popAdvance (s : State) : State := { s with qrd := advance s.qrd s.qcap }

/-- Q_POP (R89; R90 step 1 when POP_SPLIT = 1). -/
def execQPop (s : State) : Host.Outcome State Fault Refusal :=
  finish s <| requireQueue s <|
    if s.isEmpty then .ok (s.respond .cp .empty 0#32 [])
    else if s.params.popSplit then .ok { popAdvance s with popHeld := some (s.slotRead s.qrd) }
    else .ok ({ popAdvance s with qfull := false }.respond .cp .ok 0#32 (s.slotRead s.qrd).view)

/-- Step 2 of a split Q_POP (R90): the consumer port takes it while POPPEND = 1. It clears QFULL
whatever the producer did between the steps (DEDUCED, log 15). -/
def popFinish (s : State) : State :=
  match s.popHeld with
  | some m => { s with qfull := false, popHeld := none }.respond .cp .ok 0#32 m.view
  | none => s

/-- Q_ISEMPTY (R92). -/
def execQIsempty (s : State) : Host.Outcome State Fault Refusal :=
  finish s (requireQueue s (.ok (s.respond .cp .ok (boolWord s.isEmpty) [])))

/-- Q_ISFULL (R93). -/
def execQIsfull (s : State) : Host.Outcome State Fault Refusal :=
  finish s (requireQueue s (.ok (s.respond .cp .ok (boolWord s.qfull) [])))

/-- Q_USED (R94). -/
def execQUsed (s : State) : Host.Outcome State Fault Refusal :=
  finish s (requireQueue s (.ok (s.respond .cp .ok (BitVec.ofNat 32 s.used) [])))

/-- Q_FREE (R95). -/
def execQFree (s : State) : Host.Outcome State Fault Refusal :=
  finish s (requireQueue s (.ok (s.respond .cp .ok (BitVec.ofNat 32 s.free) [])))

/-- Q_CAPACITY (R96). -/
def execQCapacity (s : State) : Host.Outcome State Fault Refusal :=
  finish s (requireQueue s (.ok (s.respond .cp .ok (s.qcap.setWidth 32) [])))

/-- Q_CLEAR (R97). -/
def execQClear (s : State) : Host.Outcome State Fault Refusal :=
  finish s (requireQueue s (.ok ({ s with qrd := s.qwr, qfull := false }.respond .cp .ok 0#32 [])))

end Sys2Proof.Machine
end

