-- ==== Sys2Proof/Machine/Parser.lean ====
section
/-! DEFINITION. The parser unit and the outbound path (spec 42_parser.md): the stages of FEED, the frame builder, and
the meanings of FEED, P_SETPRE, P_BUILD and P_SEND. -/

namespace Sys2Proof.Machine

/-- `FrameCrc(dst, src, n, p)` (R64). -/
def frameCrc (tbl : Vector Word 256) (dst src n : Byte) (p : List Byte) : Word :=
  crcConcat tbl (crcCompute tbl [dst, src, n]) (p.take n.toNat)

/-- OFF after a byte in stage PRE, before the test for 4 (R106). An OFF past the preamble matches nothing; it stands in
no reachable state (R31; DESIGN CHOICE, log 10). -/
def preambleOffset (s : State) (b : Byte) : Byte :=
  if s.pre[s.off.toNat]? = some b then s.off + 1#8
  else if b = s.pre[0] then 1#8
  else 0#8

/-- FeedPre (R106). -/
def feedPre (b : Byte) (s : State) : State :=
  let t := { s with fb := { s.fb with pre := s.fb.pre.setIfInBounds s.off.toNat b } }
  let o := preambleOffset s b
  if o = 4#8 then { t with stage := .addr, off := 0#8 } else { t with off := o }

/-- FeedAddr (R107). -/
def feedAddr (b : Byte) (s : State) : State :=
  let t := { s with fb := { s.fb with addr := s.fb.addr.setIfInBounds s.off.toNat b } }
  if s.off + 1#8 = 2#8 then { t with stage := .size, off := 0#8 } else { t with off := s.off + 1#8 }

/-- FeedSize (R108): the size byte is clamped, and an empty payload goes straight to CHK. -/
def feedSize (b : Byte) (s : State) : State :=
  let n := BitVec.ofNat 8 (clamp s b.toNat)
  { s with fb := { s.fb with size := n }, off := 0#8, stage := if n = 0#8 then .chk else .pay }

/-- FeedPay (R109). -/
def feedPay (b : Byte) (s : State) : State :=
  let t := { s with fb := { s.fb with pay := s.fb.pay.set s.off.toNat b } }
  if s.off + 1#8 = s.fb.size then { t with stage := .chk, off := 0#8 } else { t with off := s.off + 1#8 }

/-- Deliver (R112): the address's destination byte is not examined (R63). -/
def deliver (s : State) : Result :=
  queuePush s (makeMessage s s.fb.addr[1] s.fb.size (s.fb.pay.take s.fb.size.toNat))

/-- The parser back in stage PRE (R113); FB and PRE keep their values. -/
def parserRestart (s : State) : State := { s with stage := .pre, off := 0#8 }

/-- Whether the checksum received is the checksum of the frame assembled (R111, R36). -/
def checksumMatches (s : State) : Bool :=
  frameCrc s.tbl s.fb.addr[0] s.fb.addr[1] s.fb.size s.fb.pay == fromLE32 s.fb.chk.toList

/-- Verify (R111). -/
def verify (s : State) : Result :=
  requireCrc s ((if checksumMatches s then deliver s else .ok s).map parserRestart)

/-- FeedChk (R110). -/
def feedChk (b : Byte) (s : State) : Result :=
  let t := { s with fb := { s.fb with chk := s.fb.chk.setIfInBounds s.off.toNat b }, off := s.off + 1#8 }
  if s.off + 1#8 = 4#8 then verify t else .ok t

/-- The parser takes one byte (R105). -/
def feedByte (b : Byte) (s : State) : Result :=
  match s.stage with
  | .pre => .ok (feedPre b s)
  | .addr => .ok (feedAddr b s)
  | .size => .ok (feedSize b s)
  | .pay => .ok (feedPay b s)
  | .chk => feedChk b s

/-- FEED (R105). -/
def execFeed (b : Byte) (s : State) : Host.Outcome State Fault Refusal :=
  finish s ((feedByte b s).map fun t => t.respond .pp .ok 0#32 [])

/-- P_SETPRE (R115). -/
def execPSetpre (w : Word) (s : State) : Host.Outcome State Fault Refusal :=
  .next ({ s with pre := preambleOf w }.respond .cp .ok 0#32 [])

/-- `BuildFrame(dst, src, len, d)` (R116), len being the length of `d`. -/
def buildFrame (s : State) (dst src : Byte) (d : List Byte) : List Byte :=
  let p := d.take (clamp s d.length)
  let n := lenC p
  s.pre.toList ++ [dst, src, n] ++ p ++ le32 (frameCrc s.tbl dst src n p)

/-- P_BUILD (R117). -/
def execPBuild (dst src : Byte) (d : List Byte) (s : State) : Host.Outcome State Fault Refusal :=
  let f := buildFrame s dst src d
  finish s (requireCrc s (.ok (s.respond .cp .ok (BitVec.ofNat 32 f.length) f)))

/-- P_SEND (R118); the transport's delay is time (DESIGN CHOICE, log 9). -/
def execPSend (dst src : Byte) (d : List Byte) (s : State) : Host.Outcome State Fault Refusal :=
  finish s (requireCrc s (.ok ((s.txAppend (buildFrame s dst src d)).respond .cp .ok 0#32 [])))

end Sys2Proof.Machine
end

