-- ==== Sys2Proof/Machine/Ports.lean ====
section
/-! DEFINITION. What a step of the block does next (spec 20_memory.md R44, R45; 30_encoding.md R57; 41_queue.md R90;
60_exceptions.md R124, R131, R136): which port moves, the admission of its command, and the delivery of a command by
the host. -/

namespace Sys2Proof.Machine

/-- What the next step is. `s` is the state from which it runs. -/
inductive Move where
  /-- The host asserts reset (R137). -/
  | reset
  /-- FAULT is not zero: no step is enabled (R124). -/
  | stuck
  /-- No command is pending (R136). -/
  | idle
  /-- No port can move and one holds part of a command (R131). -/
  | partialCommand
  /-- Step 2 of a split Q_POP (R90). -/
  | finishPop (s : State)
  /-- Admission raises a fault (R57). -/
  | reject (s : State) (c : FaultCode)
  /-- A command is admitted; its bytes are off the port. -/
  | run (i : Instr) (s : State)
  deriving DecidableEq, Repr

/-- Whether a port can move: it holds a whole command or a header that faults by itself (R51), or, on the consumer port, a
split Q_POP awaits step 2. -/
def portReady (s : State) (p : Port) : Bool :=
  (p == .cp && s.poppend) ||
    match decode (s.portIn p) with
    | .error .partialCommand => false
    | _ => true

/-- The port that moves and the state after the choice. When both can move, R45 allows either order: the host's next turn
decides, or a free value where it has named none (log 4). -/
def pickPort (s : State) : Option (Port × State) :=
  match portReady s .pp, portReady s .cp with
  | false, false => none
  | true, false => some (.pp, s)
  | false, true => some (.cp, s)
  | true, true =>
    match s.turns with
    | p :: rest => some (p, { s with turns := rest })
    | [] => some (if Config.ppFirst s.draws then .pp else .cp, { s with draws := s.draws + 1 })

/-- Admission (R57) on port `p`: ILLEGAL_OPCODE, then WRONG_PORT, then RESERVED_NONZERO; while POPPEND = 1 the consumer port
takes step 2 of the pop and admits nothing. A command's bytes leave the port when it is admitted (DESIGN CHOICE,
log 5). -/
def admission (p : Port) (s : State) : Move :=
  if p = .cp ∧ s.poppend then .finishPop s
  else
    match decode (s.portIn p) with
    | .error .illegalOpcode => .reject s .illegalOpcode
    | .error (.reservedNonzero q) => .reject s (if q = p then .reservedNonzero else .wrongPort)
    | .error .partialCommand => .partialCommand
    | .ok (i, rest) => if i.port = p then .run i (s.setPortIn p rest) else .reject s .wrongPort

/-- The next move of the block. -/
def nextMove (s : State) : Move :=
  if s.rst then .reset
  else if s.fault ≠ 0x00#8 then .stuck
  else
    match pickPort s with
    | some (p, t) => admission p t
    | none => if s.ppIn = [] ∧ s.cpIn = [] then .idle else .partialCommand

/-- The host delivers `bytes` to port `p` of a block that can take them: reset not asserted, no fault latched, no split
pop between its steps, nothing pending on the other port. -/
def deliverTo (s : State) (p : Port) (bytes : List Byte) : State :=
  { s with
    rst := false
    fault := 0x00#8
    popHeld := none
    ppIn := if p = .pp then bytes else []
    cpIn := if p = .cp then bytes else [] }

end Sys2Proof.Machine
end

