-- ==== Sys2Proof/Machine/Dispatch.lean ====
section
/-! DEFINITION. The meaning of every command (spec 30_encoding.md R52), one arm a constructor. -/

namespace Sys2Proof.Machine

def exec (i : Instr) (s : State) : Host.Outcome State Fault Refusal :=
  match i with
  | .feed byte => Sys2Proof.Machine.execFeed byte s
  | .qPush src d => Sys2Proof.Machine.execQPush src d s
  | .crcInit => Sys2Proof.Machine.execCrcInit s
  | .crcCompute d => Sys2Proof.Machine.execCrcCompute d s
  | .crcConcat w d => Sys2Proof.Machine.execCrcConcat w d s
  | .crcSelfcheck w d => Sys2Proof.Machine.execCrcSelfcheck w d s
  | .crcVerify d => Sys2Proof.Machine.execCrcVerify d s
  | .crcReflect byte => Sys2Proof.Machine.execCrcReflect byte s
  | .qCreate capacity => Sys2Proof.Machine.execQCreate capacity s
  | .qIsempty => Sys2Proof.Machine.execQIsempty s
  | .qIsfull => Sys2Proof.Machine.execQIsfull s
  | .qUsed => Sys2Proof.Machine.execQUsed s
  | .qFree => Sys2Proof.Machine.execQFree s
  | .qCapacity => Sys2Proof.Machine.execQCapacity s
  | .qPop => Sys2Proof.Machine.execQPop s
  | .qClear => Sys2Proof.Machine.execQClear s
  | .pSetpre w => Sys2Proof.Machine.execPSetpre w s
  | .pBuild dst src d => Sys2Proof.Machine.execPBuild dst src d s
  | .pSend dst src d => Sys2Proof.Machine.execPSend dst src d s

end Sys2Proof.Machine
end

