-- ==== Sys2Proof/Machine/Step.lean ====
section
/-! DEFINITION. One step of the block: one atomic command of one port (spec 20_memory.md R40, R45), step 2 of a split
pop, a fault entry or a reset; and the state in which the next step runs a given row of the opcode table. -/

namespace Sys2Proof.Machine

def step (s : State) : Host.Outcome State Fault Refusal :=
  match nextMove s with
  | .reset => .next s.takeReset
  | .stuck => .fault (.stuck s.fault)
  | .idle => .next s
  | .partialCommand => .refused .partialCommand
  | .finishPop t => .next (popFinish t)
  | .reject t c => .next (t.takeFault c)
  | .run i t => exec i t

/-- The host delivers the table word `w` to the port of its opcode, and nothing to the other (assumption log 8). -/
def State.withFetchWord (s : State) (nbits w : Nat) : State :=
  deliverTo s (tablePort nbits w) (tableBytes nbits w)

end Sys2Proof.Machine
end

