-- ==== Sys2Proof/Certificates/Slice0/Obligations.lean ====
section
/-! DEFINITION. The statements about LMCORE, from the numbered rules of the spec. A statement that names an open value of the
spec holds for every value of it: the unspecified bytes of a stored Message appear as "some `tail`", the parameters of R4 are
fields of the state, and the order of the two ports is any. -/

open Sys2Proof Sys2Proof.Machine

/-! ### Encoding and admission -/

/-- Every operand of every command comes back from its port bytes, whatever bytes follow them (R48 to R52, R58). -/
def Obligations.DecodeOfEncode : Prop :=
  ∀ (i : Instr) (rest : List Byte), WellFormed i → decode (encode i ++ rest) = .ok (i, rest)

/-- The decoder accepts nothing but the encodings of well-formed commands (R51, R54, R55). -/
def Obligations.EncodeOfDecode : Prop :=
  ∀ (bs rest : List Byte) (i : Instr), decode bs = .ok (i, rest) → WellFormed i ∧ bs = encode i ++ rest

/-- Port bytes written out from the headers of 95_test_vectors.md decode to the commands they stand for. -/
def Obligations.SpecWordsDecode : Prop :=
  decode [0x01, 0xAA, 0x00, 0x00] = .ok (.feed 0xAA, []) ∧
  decode [0x02, 0x0A, 0x00, 0x01, 0xA1] = .ok (.qPush 0x0A [0xA1], []) ∧
  decode [0x12, 0x00, 0x02, 0x00, 0x8B, 0xB0, 0xBB, 0x22, 0x48, 0x69] = .ok (.crcConcat 0x22BBB08B [0x48, 0x69], []) ∧
  decode [0x20, 0x00, 0x11, 0x00] = .ok (.qCreate 17, []) ∧
  decode [0x26, 0x00, 0x00, 0x00, 0x23, 0x00, 0x00, 0x00] = .ok (.qPop, [0x23, 0x00, 0x00, 0x00]) ∧
  decode [0x30, 0x00, 0x00, 0x00, 0xAA, 0xBB, 0xCC, 0xDD] = .ok (.pSetpre 0xDDCCBBAA, []) ∧
  decode [0x31, 0x01, 0x02, 0x02, 0x48, 0x69] = .ok (.pBuild 0x01 0x02 [0x48, 0x69], []) ∧
  decode [0x00, 0xAA, 0x00, 0x00] = .error .illegalOpcode ∧
  decode [0x21, 0x01, 0x00, 0x00] = .error (.reservedNonzero .cp)

/-- When the step is on port `p` and that port's bytes begin with a command of that port, the step is the command's meaning, run
with the choice of the port made (R40, R57). While POPPEND = 1 the consumer port admits none. That the command's bytes are then off
the port, also when the command faults, and that the choice takes a turn or a draw, are the model's choices (log 5, log 4). -/
def Obligations.StepRunsDecodedCommand : Prop :=
  ∀ (s t : State) (p : Port) (i : Instr) (rest : List Byte),
    Serves s p t → (p = .cp → s.poppend = false) → decode (s.portIn p) = .ok (i, rest) → i.port = p →
    step s = exec i (match p with
      | .pp => { s with ppIn := rest, turns := t.turns, draws := t.draws }
      | .cp => { s with cpIn := rest, turns := t.turns, draws := t.draws })

/-- Which port moves (R44, R45): a port that holds a whole command, or a pop to finish, moves when the other does not; when both
do, either may. That the host's `turns` decide is the model's choice (log 4). -/
def Obligations.EitherReadyPortMayMove : Prop :=
  ∀ s : State,
    (∀ p, portReady s p = true ↔
      p = .cp ∧ s.poppend = true ∨ decode (s.portIn p) ≠ .error .partialCommand) ∧
    (∀ p, portReady s p = true → portReady s p.other = false → pickPort s = some (p, s)) ∧
    (portReady s .pp = true → portReady s .cp = true →
      (∀ p rest, s.turns = p :: rest → pickPort s = some (p, { s with turns := rest })) ∧
      (s.turns = [] → ∃ p, pickPort s = some (p, { s with draws := s.draws + 1 }))) ∧
    (portReady s .pp = false → portReady s .cp = false → pickPort s = none)

/-- R54: an opcode outside the map is illegal on both ports and latches ILLEGAL_OPCODE; no other opcode is illegal. Nothing is said
of the bytes the ports hold after the fault. -/
def Obligations.IllegalOpcodeFaults : Prop :=
  ∀ (s t : State) (p : Port) (op a b c : Byte) (rest : List Byte),
    Serves s p t → (p = .cp → s.poppend = false) → s.portIn p = op :: a :: b :: c :: rest →
    (illegalOp op → StepLatches s 0x01#8) ∧
    (¬ illegalOp op → ∀ u, nextMove s ≠ .reject u .illegalOpcode)

/-- R53: a legal opcode on the other port latches WRONG_PORT, whatever its reserved fields hold; on its own port it never
does. Nothing is said of the bytes the ports hold after the fault. A header without its whole trailer is no move of the host
(R131): `Serves` leaves it out. -/
def Obligations.WrongPortFaults : Prop :=
  ∀ (s t : State) (p : Port) (op a b c : Byte) (rest : List Byte),
    Serves s p t → (p = .cp → s.poppend = false) → s.portIn p = op :: a :: b :: c :: rest →
    (legalOn p.other op → StepLatches s 0x03#8) ∧
    (legalOn p op → ∀ u, nextMove s ≠ .reject u .wrongPort)

/-- R55: a legal opcode on its own port with a reserved header field that is not zero latches RESERVED_NONZERO; with every one
zero, admission raises nothing. Nothing is said of the bytes the ports hold after the fault; a header without its whole trailer is
no move of the host (R131). -/
def Obligations.ReservedFieldsFault : Prop :=
  ∀ (s t : State) (p : Port) (op a b c : Byte) (rest : List Byte),
    Serves s p t → (p = .cp → s.poppend = false) → s.portIn p = op :: a :: b :: c :: rest → legalOn p op →
    (reservedSet op a b c → StepLatches s 0x02#8) ∧
    (¬ reservedSet op a b c → ∀ u f, nextMove s ≠ .reject u f)

/-- R136: with no command pending on either port the block keeps every state element. -/
def Obligations.IdleBlockKeepsState : Prop :=
  ∀ s : State, s.rst = false → s.fault = 0x00#8 → s.ppIn = [] → s.cpIn = [] → s.poppend = false → step s = .next s

/-- A step takes at most one whole command, off one port, and leaves the other port's bytes alone (R45: one step is one command of
one port). That a command's bytes leave its port at admission, also when it then faults, and that the bytes of a command that
admission rejects stay, are the model's choices (log 5): no rule says where delivered bytes wait. -/
def Obligations.StepTakesOneCommand : Prop :=
  ∀ s t : State, s.rst = false → step s = .next t →
    t.ppIn = s.ppIn ∧ t.cpIn = s.cpIn ∨
    ∃ p i, WellFormed i ∧ i.port = p ∧ s.portIn p = encode i ++ t.portIn p ∧ t.portIn p.other = s.portIn p.other

/-! ### Faults and reset -/

/-- R124: a fault is precise (the command has no effect but FAULT, and no response), FAULT is written only while it holds 0x00,
and from then on no step is enabled until reset. What a port has delivered and whose turn it was is no state element of
R15. -/
def Obligations.FaultIsPreciseAndFinal : Prop :=
  (∀ i s t, s.fault = 0x00#8 → exec i s = .next t → t.fault ≠ 0x00#8 → t = { s with fault := t.fault }) ∧
  (∀ i s t, s.fault ≠ 0x00#8 → exec i s = .next t → t.fault = s.fault) ∧
  (∀ s t : State, s.rst = false → s.fault = 0x00#8 → step s = .next t → t.fault ≠ 0x00#8 →
    t = { s with fault := t.fault, ppIn := t.ppIn, cpIn := t.cpIn, turns := t.turns, draws := t.draws }) ∧
  (∀ s : State, s.rst = false → s.fault ≠ 0x00#8 → step s = .fault (.stuck s.fault))

/-- R123, R125: each command raises the fault that its pseudocode's first failing check names, and none when no check fails. -/
def Obligations.CommandRaisesItsFault : Prop :=
  ∀ (i : Instr) (s : State), s.fault = 0x00#8 →
    (∀ c, faultOf i s = some c → exec i s = .next { s with fault := c.code }) ∧
    (faultOf i s = none → ∃ t, exec i s = .next t ∧ t.fault = 0x00#8)

/-- R16: FAULT goes from 0x00 to one of the codes 0x01 to 0x08 and then stays; only reset writes 0x00. -/
def Obligations.FaultLatchesFirstCode : Prop :=
  ∀ s t : State, step s = .next t →
    t.fault = s.fault ∨ s.fault = 0x00#8 ∧ 1 ≤ t.fault.toNat ∧ t.fault.toNat ≤ 8 ∨ s.rst = true ∧ t.fault = 0x00#8

/-- R137: reset at any time, a latched fault or a half-done pop included, sets every element to its reset value and gives no
response; TBL, FB and SLOT are unspecified, so nothing but their shape is said of them. -/
def Obligations.ResetSetsEveryElement : Prop :=
  ∀ s : State, s.rst = true → ∃ t, step s = .next t ∧
    t.fault = 0x00#8 ∧ t.crcv = false ∧ t.pre = #v[0xAA, 0xBB, 0xCC, 0xDD] ∧ t.stage = .pre ∧ t.off = 0#8 ∧
    t.qcap = 0#16 ∧ t.qrd = 0#16 ∧ t.qwr = 0#16 ∧ t.qfull = false ∧ t.popHeld = none ∧ t.tx = [] ∧
    t.slots.length = s.params.qslots ∧ t.fb.pay.length = s.params.maxPayload ∧
    (∀ r ∈ t.ppResp, r ∈ s.ppResp) ∧ ∀ r ∈ t.cpResp, r ∈ s.cpResp

/-- The model's choice (log 1, 4, 6, 7): reset is one step, which also drops every pending byte and empties the response records,
and keeps the parameters of the instance and the host's turns; the step after it is no reset. -/
def Obligations.ResetDropsPendingBytes : Prop :=
  ∀ s : State, s.rst = true → ∃ t, step s = .next t ∧
    t.ppIn = [] ∧ t.cpIn = [] ∧ t.ppResp = [] ∧ t.cpResp = [] ∧ t.params = s.params ∧ t.turns = s.turns ∧ t.rst = false ∧
    step t = .next t

/-- R31 at reset, for every legal instance, the model's own State.reset (the instance of R5) among them. -/
def Obligations.ResetMeetsInvariant : Prop :=
  State.reset.Inv ∧ ∀ (p : Params) (turns : List Port) (k : Nat), p.Legal → (State.resetOf p turns k).Inv

/-- R31: every step keeps the invariant, from every state that meets it. -/
def Obligations.StepKeepsInvariant : Prop :=
  ∀ s t : State, s.Inv → step s = .next t → t.Inv

/-! ### The CRC unit -/

/-- R70: CRC_INIT fills TBL and sets CRCV, and repeated it leaves every state element unchanged. -/
def Obligations.CrcInitFillsTable : Prop :=
  ∀ s : State,
    exec .crcInit s = .next ({ s with tbl := crcTable, crcv := true }.respond .cp .ok 0#32 []) ∧
    (∀ i : Byte, crcTable[i.toNat] = crcTableEntry i) ∧
    (∀ t, exec .crcInit s = .next t → exec .crcInit t = .next (t.respond .cp .ok 0#32 [])) ∧
    encode .crcInit = [0x10, 0, 0, 0] ∧ Instr.crcInit.port = .cp

/-- R69: the table the model computes is the table the spec prints. -/
def Obligations.TableIsThePrintedTable : Prop := crcTable.toList = printedTable

/-- R71, R72: each byte is one table read; an empty range gives the seed XOR the final XOR, or the prior checksum; a checksum from
scratch is one continued from 0. -/
def Obligations.CrcTakesOneByteAtATime : Prop :=
  ∀ (tbl : Vector Word 256) (p : Word) (d : List Byte) (b : Byte),
    crcCompute tbl [] = 0#32 ∧ crcConcat tbl p [] = p ∧ crcCompute tbl d = crcConcat tbl 0#32 d ∧
    crcConcat tbl p (d ++ [b]) =
      let c := crcConcat tbl p d ^^^ 0xFFFFFFFF#32
      (tbl[((c ^^^ b.setWidth 32) &&& 0xFF#32).toNat % 256] ^^^ (c >>> 8)) ^^^ 0xFFFFFFFF#32

/-- R3, R67, R71: the table-driven engine computes the standard reflected CRC-32 of the bit-serial engine, for every byte
sequence. -/
def Obligations.TableEngineEqualsBitSerialEngine : Prop :=
  ∀ d : List Byte, crcCompute crcTable d = bitSerialCrc d

/-- R79: the check value. -/
def Obligations.CheckValueOf123456789 : Prop :=
  crcCompute crcTable [0x31, 0x32, 0x33, 0x34, 0x35, 0x36, 0x37, 0x38, 0x39] = 0xCBF43926

/-- R73 to R76: the responses of the four commands that need TBL; they write no state, and fault while CRCV = 0. -/
def Obligations.CrcCommandsRespond : Prop :=
  ∀ (s : State) (w : Word) (d : List Byte),
    (s.crcv = true →
      exec (.crcCompute d) s = .next (s.respond .cp .ok (crcCompute s.tbl d) []) ∧
      exec (.crcConcat w d) s = .next (s.respond .cp .ok (crcConcat s.tbl w d) []) ∧
      exec (.crcSelfcheck w d) s = .next (s.respond .cp .ok (if crcCompute s.tbl d = w then 1#32 else 0#32) []) ∧
      exec (.crcVerify d) s = .next (s.respond .cp .ok
        (if 4 ≤ d.length ∧ crcCompute s.tbl (d.take (d.length - 4)) = fromLE32 (d.drop (d.length - 4)) then 1#32 else 0#32) [])) ∧
    (s.crcv = false → s.fault = 0x00#8 →
      ∀ i ∈ [Instr.crcCompute d, .crcConcat w d, .crcSelfcheck w d, .crcVerify d],
        exec i s = .next { s with fault := 0x04#8 }) ∧
    (∀ i ∈ [Instr.crcCompute d, .crcConcat w d, .crcSelfcheck w d, .crcVerify d], i.port = .cp) ∧
    encode (.crcCompute d) = 0x11 :: 0 :: le16 (lenN d) ++ d ∧
    encode (.crcConcat w d) = 0x12 :: 0 :: le16 (lenN d) ++ le32 w ++ d ∧
    encode (.crcSelfcheck w d) = 0x13 :: 0 :: le16 (lenN d) ++ le32 w ++ d ∧
    encode (.crcVerify d) = 0x14 :: 0 :: le16 (lenN d) ++ d

/-- R78: a range may be split anywhere, and CRC_CONCAT continues CRC_COMPUTE. -/
def Obligations.SplittingNeverChangesChecksum : Prop :=
  (∀ (tbl : Vector Word 256) (d : List Byte) (k : Nat),
    crcCompute tbl d = crcConcat tbl (crcCompute tbl (d.take k)) (d.drop k)) ∧
  (∀ (tbl : Vector Word 256) (p : Word) (x y : List Byte),
    crcConcat tbl (crcConcat tbl p x) y = crcConcat tbl p (x ++ y)) ∧
  (∀ (s : State) (d : List Byte) (k : Nat) (r : Response), s.crcv = true →
    exec (.crcCompute d) s = .next { s with cpResp := s.cpResp ++ [r] } →
    exec (.crcConcat (crcCompute s.tbl (d.take k)) (d.drop k)) s = .next { s with cpResp := s.cpResp ++ [r] })

/-- Two byte ranges of one length that differ in one byte never have one checksum (from R67, R71 and R72; the general fact that
R80 only quotes). -/
def Obligations.OneChangedByteChangesChecksum : Prop :=
  ∀ (p : Word) (x y : List Byte) (b c : Byte), b ≠ c →
    crcConcat crcTable p (x ++ b :: y) ≠ crcConcat crcTable p (x ++ c :: y)

/-- R77: CRC_REFLECT reverses the bits of a byte, without CRCV or TBL, and is its own inverse. -/
def Obligations.ReflectReversesBits : Prop :=
  ∀ (s : State) (b : Byte),
    (∃ r : Byte, exec (.crcReflect b) s = .next (s.respond .cp .ok (r.setWidth 32) []) ∧
      ∀ k < 8, r.getLsbD k = b.getLsbD (7 - k)) ∧
    reflect8 (reflect8 b) = b ∧ encode (.crcReflect b) = [0x15, b, 0, 0] ∧ (Instr.crcReflect b).port = .cp

/-- R76 with R64 and R116: the bytes of a built frame after its preamble pass CRC_VERIFY. -/
def Obligations.BuiltFramePassesVerify : Prop :=
  ∀ (s : State) (dst src : Byte) (d : List Byte), s.crcv = true → s.params.Legal →
    exec (.crcVerify ((buildFrame s dst src d).drop 4)) s = .next (s.respond .cp .ok 1#32 [])

/-! ### The queue unit -/

/-- R86: Q_CREATE. -/
def Obligations.CreateBindsAndEmpties : Prop :=
  ∀ (s : State) (n : Half),
    (n ≠ 0#16 → n.toNat ≤ s.params.qslots →
      exec (.qCreate n) s = .next ({ s with qcap := n, qrd := 0#16, qwr := 0#16, qfull := false }.respond .cp .ok 0#32 [])) ∧
    (s.fault = 0x00#8 → n = 0#16 → exec (.qCreate n) s = .next { s with fault := 0x06#8 }) ∧
    (s.fault = 0x00#8 → n ≠ 0#16 → s.params.qslots < n.toNat → exec (.qCreate n) s = .next { s with fault := 0x07#8 }) ∧
    encode (.qCreate n) = [0x20, 0, n.extractLsb' 0 8, n.extractLsb' 8 8] ∧ (Instr.qCreate n).port = .cp

/-- R87, R88: Q_PUSH stores a Message and advances QWR, drops it silently on a full queue, and faults on a size over MAX_PAYLOAD
before it looks at the queue. -/
def Obligations.PushStoresOrDrops : Prop :=
  ∀ (s : State) (src : Byte) (d : List Byte),
    (d.length ≤ s.params.maxPayload → s.qcap ≠ 0#16 → s.qfull = false →
      ∃ tail : List Byte, tail.length = s.params.maxPayload - d.length ∧
        let w : Half := BitVec.ofNat 16 ((s.qwr.toNat + 1) % s.qcap.toNat)
        exec (.qPush src d) s = .next
          ({ s with slots := s.slots.set s.qwr.toNat ⟨src, BitVec.ofNat 8 d.length, d ++ tail⟩, qwr := w,
                    qfull := decide (s.qrd = w), draws := s.draws + 1 }.respond .pp .ok 0#32 [])) ∧
    (d.length ≤ s.params.maxPayload → s.qcap ≠ 0#16 → s.qfull = true →
      exec (.qPush src d) s = .next (s.respond .pp .ok 0#32 [])) ∧
    (s.fault = 0x00#8 → s.params.maxPayload < d.length → exec (.qPush src d) s = .next { s with fault := 0x08#8 }) ∧
    (s.fault = 0x00#8 → d.length ≤ s.params.maxPayload → s.qcap = 0#16 →
      exec (.qPush src d) s = .next { s with fault := 0x05#8 }) ∧
    encode (.qPush src d) = [0x02, src, 0, BitVec.ofNat 8 d.length] ++ d ∧ (Instr.qPush src d).port = .pp

/-- R89: Q_POP with POP_SPLIT = 0 reads SLOT[QRD], advances QRD, clears QFULL and returns the Message; on an empty queue it responds
EMPTY and writes nothing. -/
def Obligations.PopReturnsOldest : Prop :=
  ∀ s : State, s.params.popSplit = false →
    (∀ m, s.qcap ≠ 0#16 → ¬ (s.qfull = false ∧ s.qrd = s.qwr) → s.slots[s.qrd.toNat]? = some m →
      exec .qPop s = .next
        ({ s with qrd := BitVec.ofNat 16 ((s.qrd.toNat + 1) % s.qcap.toNat), qfull := false }.respond .cp .ok 0#32
          ([m.src, m.size] ++ m.pay.take m.size.toNat))) ∧
    (s.qcap ≠ 0#16 → s.qfull = false → s.qrd = s.qwr → exec .qPop s = .next (s.respond .cp .empty 0#32 [])) ∧
    (s.fault = 0x00#8 → s.qcap = 0#16 → exec .qPop s = .next { s with fault := 0x05#8 }) ∧
    encode .qPop = [0x26, 0, 0, 0] ∧ Instr.qPop.port = .cp

/-- R90: Q_POP with POP_SPLIT = 1. Step 1 advances QRD and holds the Message without a response; while it is held the consumer port
can always move, and its only move is step 2, whatever command waits. -/
def Obligations.SplitPopTakesTwoSteps : Prop :=
  (∀ s : State, s.params.popSplit = true →
    (∀ m, s.qcap ≠ 0#16 → ¬ (s.qfull = false ∧ s.qrd = s.qwr) → s.slots[s.qrd.toNat]? = some m →
      exec .qPop s = .next
        { s with qrd := BitVec.ofNat 16 ((s.qrd.toNat + 1) % s.qcap.toNat), popHeld := some m }) ∧
    (s.qcap ≠ 0#16 → s.qfull = false → s.qrd = s.qwr → exec .qPop s = .next (s.respond .cp .empty 0#32 [])) ∧
    (s.fault = 0x00#8 → s.qcap = 0#16 → exec .qPop s = .next { s with fault := 0x05#8 })) ∧
  (∀ (s : State) (m : Message), s.popHeld = some m →
    portReady s .cp = true ∧
    ∀ t, Serves s .cp t → step s = .next
      ({ t with qfull := false, popHeld := none }.respond .cp .ok 0#32 ([m.src, m.size] ++ m.pay.take m.size.toNat)))

/-- R92 to R96: the five queries respond and write nothing, and fault before Q_CREATE. -/
def Obligations.QueriesReportTheQueue : Prop :=
  ∀ s : State,
    let used := if s.qfull then s.qcap.toNat else (s.qwr.toNat + s.qcap.toNat - s.qrd.toNat) % s.qcap.toNat
    (s.qcap ≠ 0#16 →
      exec .qIsempty s = .next (s.respond .cp .ok (if s.qfull = false ∧ s.qrd = s.qwr then 1#32 else 0#32) []) ∧
      exec .qIsfull s = .next (s.respond .cp .ok (if s.qfull = true then 1#32 else 0#32) []) ∧
      exec .qUsed s = .next (s.respond .cp .ok (BitVec.ofNat 32 used) []) ∧
      exec .qFree s = .next (s.respond .cp .ok (BitVec.ofNat 32 (s.qcap.toNat - used)) []) ∧
      exec .qCapacity s = .next (s.respond .cp .ok (BitVec.ofNat 32 s.qcap.toNat) [])) ∧
    (s.qcap = 0#16 → s.fault = 0x00#8 → ∀ i ∈ [Instr.qIsempty, .qIsfull, .qUsed, .qFree, .qCapacity],
      exec i s = .next { s with fault := 0x05#8 }) ∧
    (∀ i ∈ [Instr.qIsempty, .qIsfull, .qUsed, .qFree, .qCapacity], i.port = .cp) ∧
    encode .qIsempty = [0x21, 0, 0, 0] ∧ encode .qIsfull = [0x22, 0, 0, 0] ∧ encode .qUsed = [0x23, 0, 0, 0] ∧
    encode .qFree = [0x24, 0, 0, 0] ∧ encode .qCapacity = [0x25, 0, 0, 0]

/-- Q_CLEAR moves QRD to QWR and clears QFULL, and on an empty queue changes nothing (R97). -/
def Obligations.ClearDiscardsAll : Prop :=
  ∀ s : State,
    (s.qcap ≠ 0#16 → exec .qClear s = .next ({ s with qrd := s.qwr, qfull := false }.respond .cp .ok 0#32 [])) ∧
    (s.qcap ≠ 0#16 → s.qfull = false → s.qrd = s.qwr → exec .qClear s = .next (s.respond .cp .ok 0#32 [])) ∧
    (s.fault = 0x00#8 → s.qcap = 0#16 → exec .qClear s = .next { s with fault := 0x05#8 }) ∧
    encode .qClear = [0x27, 0, 0, 0] ∧ Instr.qClear.port = .cp

/-- The end state of Q_CLEAR is the end state of Used(S) Q_POP commands in a row, but for the responses (R97). -/
def Obligations.ClearEqualsPoppingAll : Prop :=
  ∀ s : State, s.Inv → s.qcap ≠ 0#16 → s.params.popSplit = false →
    ∃ t u, popTimes s.used s = .next t ∧ exec .qClear s = .next u ∧
      { t with cpResp := s.cpResp } = { u with cpResp := s.cpResp }

/-- R91: the seven consumer queue commands raise QUEUE_NOT_CREATED before they read other queue state; none writes QWR, and only
Q_POP and Q_CLEAR write QRD or QFULL. -/
def Obligations.ConsumerCommandsNeedQueue : Prop :=
  ∀ i ∈ [Instr.qPop, .qIsempty, .qIsfull, .qUsed, .qFree, .qCapacity, .qClear], ∀ s : State,
    (s.fault = 0x00#8 → s.qcap = 0#16 → exec i s = .next { s with fault := 0x05#8 }) ∧
    ∀ t, exec i s = .next t →
      t.qwr = s.qwr ∧ (i ≠ .qPop → i ≠ .qClear → t.qrd = s.qrd ∧ t.qfull = s.qfull)

/-- R98: the laws of Used, Empty and QFULL in every good state, and a push on a full queue changes no state. -/
def Obligations.QueueCountsAreConsistent : Prop :=
  ∀ s : State, s.Inv → s.qcap ≠ 0#16 → s.poppend = false →
    s.used ≤ s.qcap.toNat ∧ s.used + s.free = s.qcap.toNat ∧ (s.isEmpty = true ↔ s.used = 0) ∧
    (s.qfull = true ↔ s.used = s.qcap.toNat) ∧
    (s.qfull = true → ∀ m, queuePush s m = .ok s)

/-- R99: Messages leave the queue in the order they entered it. A push adds its Message behind the others, a dropped one leaves the
queue as it is, and a pop returns the first and leaves the rest. -/
def Obligations.QueueIsFirstInFirstOut : Prop :=
  ∀ s : State, s.Inv → s.qcap ≠ 0#16 → s.poppend = false →
    (∀ (src : Byte) (d : List Byte), d.length ≤ s.params.maxPayload → s.qfull = false →
      ∃ t m, exec (.qPush src d) s = .next t ∧ t.queue = s.queue ++ [m] ∧
        m.view = src :: BitVec.ofNat 8 d.length :: d) ∧
    (∀ (src : Byte) (d : List Byte), d.length ≤ s.params.maxPayload → s.qfull = true →
      ∃ t, exec (.qPush src d) s = .next t ∧ t.queue = s.queue) ∧
    (∀ (m : Message) (rest : List Message), s.params.popSplit = false → s.queue = m :: rest →
      ∃ t, exec .qPop s = .next t ∧ t.queue = rest ∧ t.cpResp = s.cpResp ++ [⟨.ok, 0, m.view⟩])

/-- R148: the producer never empties the queue, so Q_ISEMPTY = 0 and then Q_POP returns a Message, whatever the producer port does
between them. -/
def Obligations.ProducerNeverEmptiesQueue : Prop :=
  (∀ (i : Instr) (s t : State), i.port = .pp → exec i s = .next t → s.qcap ≠ 0#16 → s.isEmpty = false →
    t.qcap ≠ 0#16 ∧ t.isEmpty = false) ∧
  (∀ s : State, s.qcap ≠ 0#16 → s.isEmpty = false →
    exec .qIsempty s = .next (s.respond .cp .ok 0#32 []) ∧
    (s.params.popSplit = false → ∃ t m, exec .qPop s = .next t ∧
      t.cpResp = s.cpResp ++ [⟨.ok, 0, m⟩] ∧ 2 ≤ m.length))

/-- R147: a push between the two steps of a pop of a full queue is dropped. -/
def Obligations.PushDuringSplitPopIsDropped : Prop :=
  ∀ (s : State) (src : Byte) (d : List Byte), s.params.popSplit = true → s.qcap ≠ 0#16 → s.qfull = true →
    d.length ≤ s.params.maxPayload →
    ∃ t m, exec .qPop s = .next t ∧ t.popHeld = some m ∧ t.qfull = true ∧
      t.cpResp = s.cpResp ∧ exec (.qPush src d) t = .next (t.respond .pp .ok 0#32 [])

/-! ### The parser unit -/

/-- R106: FEED in stage PRE stores the byte, advances on a match, restarts at 1 on a mismatch that equals PRE[0] and at 0 on any
other, and leaves for ADDR on the fourth match. -/
def Obligations.FeedSearchesPreamble : Prop :=
  ∀ (s : State) (b : Byte) (h : s.off.toNat < 4), s.stage = .pre →
    let o : Byte := if b = s.pre[s.off.toNat] then s.off + 1#8 else if b = s.pre[0] then 1#8 else 0#8
    exec (.feed b) s = .next
      ({ s with fb := { s.fb with pre := s.fb.pre.set s.off.toNat b },
                stage := if o = 4#8 then .addr else .pre, off := if o = 4#8 then 0#8 else o }.respond .pp .ok 0#32 [])

/-- R107: FEED in stage ADDR takes the destination and then the source. -/
def Obligations.FeedTakesAddress : Prop :=
  ∀ (s : State) (b : Byte) (h : s.off.toNat < 2), s.stage = .addr →
    exec (.feed b) s = .next
      ({ s with fb := { s.fb with addr := s.fb.addr.set s.off.toNat b },
                stage := if s.off.toNat = 1 then .size else .addr,
                off := if s.off.toNat = 1 then 0#8 else s.off + 1#8 }.respond .pp .ok 0#32 [])

/-- R108: FEED in stage SIZE clamps the size byte; size 0 goes straight to CHK. -/
def Obligations.FeedClampsSize : Prop :=
  ∀ (s : State) (b : Byte), s.stage = .size →
    ∃ n : Byte, n.toNat = min b.toNat s.params.maxPayload ∧
      exec (.feed b) s = .next
        ({ s with fb := { s.fb with size := n }, off := 0#8,
                  stage := if n = 0#8 then .chk else .pay }.respond .pp .ok 0#32 [])

/-- R109: FEED in stage PAY stores the byte at OFF and leaves for CHK at FB.size bytes. -/
def Obligations.FeedTakesPayload : Prop :=
  ∀ (s : State) (b : Byte), s.stage = .pay → s.off.toNat < s.fb.size.toNat →
    exec (.feed b) s = .next
      ({ s with fb := { s.fb with pay := s.fb.pay.set s.off.toNat b },
                stage := if s.off.toNat + 1 = s.fb.size.toNat then .chk else .pay,
                off := if s.off.toNat + 1 = s.fb.size.toNat then 0#8 else s.off + 1#8 }.respond .pp .ok 0#32 [])

/-- R110 to R113: FEED in stage CHK stores the byte; the fourth verifies. A match is delivered to the queue, or dropped when it is
full; a mismatch is discarded; each ends in stage PRE at offset 0, and a fault leaves all but FAULT. -/
def Obligations.FeedVerifiesChecksum : Prop :=
  ∀ (s : State) (b : Byte) (h : s.off.toNat < 4), s.stage = .chk →
    let taken := { s with fb := { s.fb with chk := s.fb.chk.set s.off.toNat b } }
    let n := s.fb.size.toNat
    let good := frameCrc s.tbl s.fb.addr[0] s.fb.addr[1] s.fb.size s.fb.pay =
      fromLE32 [s.fb.chk[0], s.fb.chk[1], s.fb.chk[2], b]
    let w : Half := BitVec.ofNat 16 ((s.qwr.toNat + 1) % s.qcap.toNat)
    (s.off.toNat < 3 → exec (.feed b) s = .next ({ taken with off := s.off + 1#8 }.respond .pp .ok 0#32 [])) ∧
    (s.off.toNat = 3 → s.crcv = true → (¬ good ∨ s.qcap ≠ 0#16 ∧ s.qfull = true) →
      exec (.feed b) s = .next ({ taken with stage := .pre, off := 0#8 }.respond .pp .ok 0#32 [])) ∧
    (s.off.toNat = 3 → s.crcv = true → good → s.qcap ≠ 0#16 → s.qfull = false →
      n ≤ s.params.maxPayload → s.fb.pay.length = s.params.maxPayload →
      ∃ tail : List Byte, tail.length = s.params.maxPayload - n ∧
        exec (.feed b) s = .next
          ({ taken with stage := .pre, off := 0#8, qwr := w, qfull := decide (s.qrd = w), draws := s.draws + 1,
                        slots := s.slots.set s.qwr.toNat ⟨s.fb.addr[1], s.fb.size, s.fb.pay.take n ++ tail⟩ }.respond
            .pp .ok 0#32 [])) ∧
    (s.off.toNat = 3 → s.fault = 0x00#8 → s.crcv = false → exec (.feed b) s = .next { s with fault := 0x04#8 }) ∧
    (s.off.toNat = 3 → s.fault = 0x00#8 → s.crcv = true → good → s.qcap = 0#16 →
      exec (.feed b) s = .next { s with fault := 0x05#8 })

/-- R115: P_SETPRE writes PRE and nothing else. -/
def Obligations.SetPreambleWritesPreOnly : Prop :=
  ∀ (s : State) (w : Word),
    exec (.pSetpre w) s = .next
      ({ s with pre := #v[w.extractLsb' 0 8, w.extractLsb' 8 8, w.extractLsb' 16 8, w.extractLsb' 24 8] }.respond
        .cp .ok 0#32 []) ∧
    encode (.pSetpre w) = [0x30, 0, 0, 0] ++ le32 w ∧ (Instr.pSetpre w).port = .cp

/-- R64, R116, R117: P_BUILD returns preamble, address, clamped size, truncated payload and the LE32 checksum of all but the
preamble, with the length in res, and writes no state. -/
def Obligations.BuildReturnsFrame : Prop :=
  ∀ (s : State) (dst src : Byte) (d : List Byte), s.params.Legal →
    let n := min d.length s.params.maxPayload
    let body := [dst, src, BitVec.ofNat 8 n] ++ d.take n
    (s.crcv = true → exec (.pBuild dst src d) s = .next
      (s.respond .cp .ok (BitVec.ofNat 32 (11 + n)) (s.pre.toList ++ body ++ le32 (crcCompute s.tbl body)))) ∧
    (s.crcv = false → s.fault = 0x00#8 → exec (.pBuild dst src d) s = .next { s with fault := 0x04#8 }) ∧
    encode (.pBuild dst src d) = [0x31, dst, src, BitVec.ofNat 8 d.length] ++ d ∧ (Instr.pBuild dst src d).port = .cp

/-- R118: P_SEND appends the same frame to TX in one step. -/
def Obligations.SendAppendsFrameToTx : Prop :=
  ∀ (s : State) (dst src : Byte) (d : List Byte), s.params.Legal →
    let n := min d.length s.params.maxPayload
    let body := [dst, src, BitVec.ofNat 8 n] ++ d.take n
    (s.crcv = true → exec (.pSend dst src d) s = .next
      ({ s with tx := s.tx ++ (s.pre.toList ++ body ++ le32 (crcCompute s.tbl body)) }.respond .cp .ok 0#32 [])) ∧
    (s.crcv = false → s.fault = 0x00#8 → exec (.pSend dst src d) s = .next { s with fault := 0x04#8 }) ∧
    encode (.pSend dst src d) = [0x32, dst, src, BitVec.ofNat 8 d.length] ++ d ∧ (Instr.pSend dst src d).port = .cp

/-- R119: feeding a built frame back delivers exactly one Message, on the last byte, and ends in stage PRE at offset 0. -/
def Obligations.BuiltFrameRoundTrip : Prop :=
  ∀ (s : State) (dst src : Byte) (d : List Byte), s.Inv → s.fault = 0x00#8 → s.crcv = true → s.qcap ≠ 0#16 →
    s.qfull = false → s.stage = .pre → s.off = 0#8 →
    let f := buildFrame s dst src d
    let n := min d.length s.params.maxPayload
    (∀ k < f.length, ∃ u, feedAll (f.take k) s = .next u ∧ u.fault = 0x00#8 ∧ u.slots = s.slots ∧ u.qrd = s.qrd ∧
      u.qwr = s.qwr ∧ u.qfull = false ∧ u.queue = s.queue) ∧
    ∃ t tail, feedAll f s = .next t ∧ t.stage = .pre ∧ t.off = 0#8 ∧ tail.length = s.params.maxPayload - n ∧
      Delivered s t ⟨src, BitVec.ofNat 8 n, d.take n ++ tail⟩

/-- R120: with the default preamble, a spurious `AA` before a frame is skipped, stage by stage, and the frame is delivered. -/
def Obligations.DefaultPreambleResynchronises : Prop :=
  ∀ (s : State) (dst src : Byte) (d : List Byte), s.Inv → s.fault = 0x00#8 → s.crcv = true → s.qcap ≠ 0#16 →
    s.qfull = false → s.stage = .pre → s.off = 0#8 → s.pre = #v[0xAA, 0xBB, 0xCC, 0xDD] →
    let n := min d.length s.params.maxPayload
    (∀ k st o, (k, st, o) ∈ [(1, Stage.pre, (1 : Byte)), (2, .pre, 1), (3, .pre, 2), (4, .pre, 3), (5, .addr, 0)] →
      ∃ u, feedAll ([0xAA, 0xAA, 0xBB, 0xCC, 0xDD].take k) s = .next u ∧ u.stage = st ∧ u.off = o) ∧
    ∃ t tail, feedAll (0xAA :: buildFrame s dst src d) s = .next t ∧ t.stage = .pre ∧ t.off = 0#8 ∧
      tail.length = s.params.maxPayload - n ∧ Delivered s t ⟨src, BitVec.ofNat 8 n, d.take n ++ tail⟩

/-- R121: with PRE[1] and PRE[2] different from PRE[0], the search leaves stage PRE right after the first occurrence of PRE and not
before; with PRE = `55 55 AA CC` it misses the one in `55 55 55 AA CC`. -/
def Obligations.SearchFindsFirstPreamble : Prop :=
  (∀ (s : State) (bs : List Byte), s.stage = .pre → s.off = 0#8 → s.pre[1] ≠ s.pre[0] → s.pre[2] ≠ s.pre[0] →
    (∀ k < bs.length, ¬ s.pre.toList <:+ bs.take k) →
    ∃ t, feedAll bs s = .next t ∧
      (¬ s.pre.toList <:+ bs → t.stage = .pre) ∧ (s.pre.toList <:+ bs → t.stage = .addr ∧ t.off = 0#8)) ∧
  (∀ s : State, s.stage = .pre → s.off = 0#8 → s.pre = #v[0x55, 0x55, 0xAA, 0xCC] →
    ∃ t, feedAll [0x55, 0x55, 0x55, 0xAA, 0xCC] s = .next t ∧ t.stage = .pre)

/-- R122, its first sentence, for any change of one payload or checksum byte, one bit among them (by R67, R71 and R111, which the
whole byte follows from): the frame is not delivered and the parser is back in stage PRE. -/
def Obligations.CorruptedFrameIsNotDelivered : Prop :=
  ∀ (s : State) (dst src : Byte) (d : List Byte) (k : Nat) (b : Byte), s.Inv → s.crcv = true →
    s.stage = .pre → s.off = 0#8 →
    let f := buildFrame s dst src d
    7 ≤ k → k < f.length → f[k]? ≠ some b →
    ∃ t, feedAll (f.set k b) s = .next t ∧ t.stage = .pre ∧ t.off = 0#8 ∧ t.slots = s.slots ∧ t.qrd = s.qrd ∧
      t.qwr = s.qwr ∧ t.qfull = s.qfull ∧ t.fault = s.fault

/-- R113, R114: from stage ADDR a frame takes 2 + 1 + n + 4 bytes, n being its clamped size byte, whatever the bytes are; the last
of them brings the parser back to stage PRE at offset 0, and none before it does. -/
def Obligations.FrameEndsAfterAnnouncedLength : Prop :=
  ∀ (s : State) (bs : List Byte) (size : Byte), s.Inv → s.crcv = true → s.qcap ≠ 0#16 → s.stage = .addr → s.off = 0#8 →
    bs[2]? = some size → bs.length = 2 + 1 + min size.toNat s.params.maxPayload + 4 →
    (∃ t, feedAll bs s = .next t ∧ t.stage = .pre ∧ t.off = 0#8) ∧
    ∀ k < bs.length, ∃ u, feedAll (bs.take k) s = .next u ∧ u.stage ≠ .pre

/-! ### Rules about the whole machine -/

/-- R15, its column "written by", R114 and R140: which commands write each element. The ports' bytes, the turns and the reset
request are the model's own fields (log 5, 4, 7); that a meaning leaves them alone is no rule of the spec. -/
def Obligations.OnlyItsWritersChangeAnElement : Prop :=
  ∀ (i : Instr) (s t : State), exec i s = .next t →
    (t.crcv = s.crcv ∧ t.tbl = s.tbl ∨ i = .crcInit) ∧
    (t.pre = s.pre ∨ ∃ w, i = .pSetpre w) ∧
    (t.stage = s.stage ∧ t.fb = s.fb ∧ t.off = s.off ∨ ∃ b, i = .feed b) ∧
    (t.qcap = s.qcap ∨ ∃ n, i = .qCreate n) ∧
    (t.qrd = s.qrd ∨ (∃ n, i = .qCreate n) ∨ i = .qPop ∨ i = .qClear) ∧
    (t.qwr = s.qwr ∨ (∃ n, i = .qCreate n) ∨ (∃ src d, i = .qPush src d) ∨ ∃ b, i = .feed b) ∧
    (t.qfull = s.qfull ∨ (∃ n, i = .qCreate n) ∨ (∃ src d, i = .qPush src d) ∨ (∃ b, i = .feed b) ∨ i = .qPop ∨ i = .qClear) ∧
    (t.slots = s.slots ∨ (∃ src d, i = .qPush src d) ∨ ∃ b, i = .feed b) ∧
    (t.popHeld = s.popHeld ∨ i = .qPop) ∧
    (t.tx = s.tx ∨ ∃ dst src d, i = .pSend dst src d ∧ ∃ f, t.tx = s.tx ++ f) ∧
    t.params = s.params ∧ t.ppIn = s.ppIn ∧ t.cpIn = s.cpIn ∧ t.turns = s.turns ∧ t.rst = s.rst

/-- R41: the eleven commands that read state and write none, but for their response or the fault they raise. -/
def Obligations.ReadingCommandsWriteNothing : Prop :=
  ∀ (w : Word) (b dst src : Byte) (d : List Byte),
    ∀ i ∈ [Instr.qIsempty, .qIsfull, .qUsed, .qFree, .qCapacity, .crcCompute d, .crcConcat w d, .crcSelfcheck w d,
        .crcVerify d, .crcReflect b, .pBuild dst src d],
      ∀ s t, exec i s = .next t → t = { s with fault := t.fault, cpResp := t.cpResp }

/-- R42: FEED never writes outside FB.pay[0..MAX_PAYLOAD), and inside it only at OFF, in stage PAY, below the clamped size. -/
def Obligations.FeedStaysInsideBuffer : Prop :=
  ∀ (s t : State) (b : Byte), s.Inv → exec (.feed b) s = .next t →
    t.fb.pay.length = s.params.maxPayload ∧
    ∀ k, t.fb.pay[k]? ≠ s.fb.pay[k]? →
      s.stage = .pay ∧ k = s.off.toNat ∧ k < s.fb.size.toNat ∧ s.fb.size.toNat ≤ s.params.maxPayload

/-- R43: SLOT is written only at QWR and read by Q_POP only at QRD (what stands in any other slot makes no difference to it), both
below QCAP ≤ QSLOTS. -/
def Obligations.SlotsAccessedBelowCapacity : Prop :=
  ∀ s : State, s.Inv →
    (∀ i t, exec i s = .next t →
      t.slots.length = s.params.qslots ∧
      ∀ k, t.slots[k]? ≠ s.slots[k]? → k = s.qwr.toNat ∧ k < s.qcap.toNat ∧ s.qcap.toNat ≤ s.params.qslots) ∧
    (s.qcap ≠ 0#16 → s.qrd.toNat < s.qcap.toNat ∧ s.qcap.toNat ≤ s.params.qslots) ∧
    (∀ l t, l[s.qrd.toNat]? = s.slots[s.qrd.toNat]? → exec .qPop s = .next t →
      exec .qPop { s with slots := l } = .next { t with slots := l })

/-- R59, R126: a command that does not fault gives its own port exactly one response and the other none, but for step 1 of a split
pop, whose response step 2 gives; a command that faults gives none; only Q_POP responds EMPTY. -/
def Obligations.OneResponseToTheIssuingPort : Prop :=
  ∀ (i : Instr) (s t : State), s.fault = 0x00#8 → exec i s = .next t →
    t.portResp i.port.other = s.portResp i.port.other ∧
    (t.fault ≠ 0x00#8 ∨ (i = .qPop ∧ s.params.popSplit = true ∧ s.isEmpty = false) →
      t.portResp i.port = s.portResp i.port) ∧
    (t.fault = 0x00#8 → ¬ (i = .qPop ∧ s.params.popSplit = true ∧ s.isEmpty = false) →
      ∃ r, t.portResp i.port = s.portResp i.port ++ [r] ∧
        (r.status = .empty → i = .qPop ∧ r.res = 0 ∧ r.data = []))

/-- R139, R142: after CRC_INIT and Q_CREATE no received byte sequence raises a fault, each byte is answered, and no command undoes
either. -/
def Obligations.ReceptionNeverFaultsAfterBoot : Prop :=
  ∀ s : State, s.crcv = true → s.qcap ≠ 0#16 →
    (∀ bs, ∃ t, feedAll bs s = .next t ∧ t.fault = s.fault ∧ t.ppResp.length = s.ppResp.length + bs.length) ∧
    (∀ i t, exec i s = .next t → t.crcv = true ∧ t.qcap ≠ 0#16)
end

