-- ==== Sys2Proof/Laws/Decode.lean ====
section
/-! SUPPORT. The small laws of the encoding: byte order, header fields, the opcode map, and what `decode` answers on a header
and its whole trailer. -/

namespace Sys2Proof

@[simp] theorem fromLE32_le32 (w : Word) : fromLE32 (le32 w) = w := by
  apply BitVec.eq_of_getLsbD_eq
  intro i hi
  simp only [fromLE32, le32, BitVec.getLsbD_or, BitVec.getLsbD_setWidth, BitVec.getLsbD_shiftLeft,
    BitVec.getLsbD_extractLsb']
  interval_cases i <;> simp

@[simp] theorem le32_length (w : Word) : (le32 w).length = 4 := rfl

@[simp] theorem le16_length (n : Half) : (le16 n).length = 2 := rfl

section header
variable (a b c d : Byte)

@[simp] theorem headerOp_bytes : headerOp (fromLE32 [a, b, c, d]) = a := by
  apply BitVec.eq_of_getLsbD_eq
  intro i hi
  simp only [headerOp, fromLE32, BitVec.getLsbD_or, BitVec.getLsbD_setWidth, BitVec.getLsbD_shiftLeft,
    BitVec.getLsbD_extractLsb']
  interval_cases i <;> simp

@[simp] theorem headerA_bytes : headerA (fromLE32 [a, b, c, d]) = b := by
  apply BitVec.eq_of_getLsbD_eq
  intro i hi
  simp only [headerA, fromLE32, BitVec.getLsbD_or, BitVec.getLsbD_setWidth, BitVec.getLsbD_shiftLeft,
    BitVec.getLsbD_extractLsb']
  interval_cases i <;> simp

@[simp] theorem headerB_bytes : headerB (fromLE32 [a, b, c, d]) = c := by
  apply BitVec.eq_of_getLsbD_eq
  intro i hi
  simp only [headerB, fromLE32, BitVec.getLsbD_or, BitVec.getLsbD_setWidth, BitVec.getLsbD_shiftLeft,
    BitVec.getLsbD_extractLsb']
  interval_cases i <;> simp

@[simp] theorem headerC_bytes : headerC (fromLE32 [a, b, c, d]) = d := by
  apply BitVec.eq_of_getLsbD_eq
  intro i hi
  simp only [headerC, fromLE32, BitVec.getLsbD_or, BitVec.getLsbD_setWidth, BitVec.getLsbD_shiftLeft,
    BitVec.getLsbD_extractLsb']
  interval_cases i <;> simp

/-- N stands over B (low byte) and C (high byte). -/
@[simp] theorem le16_headerN : le16 (headerN (fromLE32 [a, b, c, d])) = [c, d] := by
  simp only [le16, List.cons.injEq, and_true]
  refine ⟨?_, ?_⟩ <;>
  · apply BitVec.eq_of_getLsbD_eq
    intro i hi
    simp only [headerN, fromLE32, BitVec.getLsbD_or, BitVec.getLsbD_setWidth, BitVec.getLsbD_shiftLeft,
      BitVec.getLsbD_extractLsb']
    interval_cases i <;> simp

theorem le32_fromLE32 : le32 (fromLE32 [a, b, c, d]) = [a, b, c, d] := by
  have h := And.intro (headerOp_bytes a b c d) (And.intro (headerA_bytes a b c d)
    (And.intro (headerB_bytes a b c d) (headerC_bytes a b c d)))
  simp only [headerOp, headerA, headerB, headerC] at h
  simp [le32, h]

end header

@[simp] theorem headerN_of_le16 (a b : Byte) (n : Half) : headerN (fromLE32 ([a, b] ++ le16 n)) = n := by
  apply BitVec.eq_of_getLsbD_eq
  intro i hi
  simp only [headerN, le16, fromLE32, List.cons_append, List.nil_append, BitVec.getLsbD_or, BitVec.getLsbD_setWidth,
    BitVec.getLsbD_shiftLeft, BitVec.getLsbD_extractLsb']
  interval_cases i <;> simp

theorem lenN_toNat {d : List Byte} (h : d.length ≤ 65535) : (lenN d).toNat = d.length := by
  simp [lenN]; omega

theorem lenC_toNat {d : List Byte} (h : d.length ≤ 255) : (lenC d).toNat = d.length := by
  simp [lenC]; omega

/-- What `decode` answers on the four header bytes of a legal opcode and at least the trailer it announces. -/
theorem decode_whole (b0 b1 b2 b3 : Byte) (trailer rest : List Byte) (r : OpRow)
    (hr : opRow b0 = some r) (hn : trailer.length = trailerLen r.format (fromLE32 [b0, b1, b2, b3])) :
    decode (b0 :: b1 :: b2 :: b3 :: (trailer ++ rest)) =
      if reservedZero r (fromLE32 [b0, b1, b2, b3]) then
        match assemble (fromLE32 [b0, b1, b2, b3]) trailer with
        | some i => .ok (i, rest)
        | none => .error .illegalOpcode
      else .error (.reservedNonzero r.port) := by
  have h1 : ¬ (trailer ++ rest).length < trailer.length := by simp
  simp only [decode, headerOp_bytes, hr, ← hn]
  refine (if_neg h1).trans ?_
  have ht : (trailer ++ rest).take trailer.length = trailer := List.take_left' rfl
  have hd : (trailer ++ rest).drop trailer.length = rest := List.drop_left' rfl
  by_cases hz : reservedZero r (fromLE32 [b0, b1, b2, b3]) = true
  · refine (if_pos hz).trans (Eq.trans ?_ (if_pos hz).symm)
    cases ha : assemble (fromLE32 [b0, b1, b2, b3]) trailer <;> simp only [ht, hd, ha]
  · exact (if_neg hz).trans (if_neg hz).symm

/-- The opcode map has one row for each legal opcode, and its rows name 19 different opcodes. -/
theorem opcodeMap_pairwise : opcodeMap.Pairwise fun r q => r.op ≠ q.op := by decide

theorem opRow_op {op : Byte} {r : OpRow} (h : opRow op = some r) : r.op = op := by
  have := List.find?_some h
  simpa using this

end Sys2Proof
end

