-- ==== Sys2Proof/Laws/State.lean ====
section
/-! SUPPORT. What each shared update leaves of every field of `State`: one lemma a field, true by computation, so that no
proof unfolds a record update. -/

namespace Sys2Proof.Machine.State

variable (s : State) (p : Port) (st : Status) (r : Word) (d : List Byte) (c : FaultCode) (i : Half) (m : Message)

/-! ### `respond` writes only the port's responses -/

@[simp] theorem respond_fault : (s.respond p st r d).fault = s.fault := by cases p <;> rfl
@[simp] theorem respond_crcv : (s.respond p st r d).crcv = s.crcv := by cases p <;> rfl
@[simp] theorem respond_tbl : (s.respond p st r d).tbl = s.tbl := by cases p <;> rfl
@[simp] theorem respond_pre : (s.respond p st r d).pre = s.pre := by cases p <;> rfl
@[simp] theorem respond_stage : (s.respond p st r d).stage = s.stage := by cases p <;> rfl
@[simp] theorem respond_fb : (s.respond p st r d).fb = s.fb := by cases p <;> rfl
@[simp] theorem respond_off : (s.respond p st r d).off = s.off := by cases p <;> rfl
@[simp] theorem respond_qcap : (s.respond p st r d).qcap = s.qcap := by cases p <;> rfl
@[simp] theorem respond_qrd : (s.respond p st r d).qrd = s.qrd := by cases p <;> rfl
@[simp] theorem respond_qwr : (s.respond p st r d).qwr = s.qwr := by cases p <;> rfl
@[simp] theorem respond_qfull : (s.respond p st r d).qfull = s.qfull := by cases p <;> rfl
@[simp] theorem respond_slots : (s.respond p st r d).slots = s.slots := by cases p <;> rfl
@[simp] theorem respond_popHeld : (s.respond p st r d).popHeld = s.popHeld := by cases p <;> rfl
@[simp] theorem respond_tx : (s.respond p st r d).tx = s.tx := by cases p <;> rfl
@[simp] theorem respond_params : (s.respond p st r d).params = s.params := by cases p <;> rfl
@[simp] theorem respond_ppIn : (s.respond p st r d).ppIn = s.ppIn := by cases p <;> rfl
@[simp] theorem respond_cpIn : (s.respond p st r d).cpIn = s.cpIn := by cases p <;> rfl
@[simp] theorem respond_turns : (s.respond p st r d).turns = s.turns := by cases p <;> rfl
@[simp] theorem respond_rst : (s.respond p st r d).rst = s.rst := by cases p <;> rfl
@[simp] theorem respond_draws : (s.respond p st r d).draws = s.draws := by cases p <;> rfl
@[simp] theorem respond_pp_ppResp : (s.respond .pp st r d).ppResp = s.ppResp ++ [⟨st, r, d⟩] := rfl
@[simp] theorem respond_pp_cpResp : (s.respond .pp st r d).cpResp = s.cpResp := rfl
@[simp] theorem respond_cp_cpResp : (s.respond .cp st r d).cpResp = s.cpResp ++ [⟨st, r, d⟩] := rfl
@[simp] theorem respond_cp_ppResp : (s.respond .cp st r d).ppResp = s.ppResp := rfl
@[simp] theorem respond_poppend : (s.respond p st r d).poppend = s.poppend := by cases p <;> rfl
@[simp] theorem respond_used : (s.respond p st r d).used = s.used := by cases p <;> rfl
@[simp] theorem respond_isEmpty : (s.respond p st r d).isEmpty = s.isEmpty := by cases p <;> rfl
@[simp] theorem respond_slotIndex (k : Nat) : (s.respond p st r d).slotIndex k = s.slotIndex k := by cases p <;> rfl
@[simp] theorem respond_slotRead : (s.respond p st r d).slotRead i = s.slotRead i := by cases p <;> rfl
@[simp] theorem respond_queue : (s.respond p st r d).queue = s.queue := by cases p <;> rfl

/-! ### Fault entry writes only FAULT -/

@[simp] theorem takeFault_crcv : (s.takeFault c).crcv = s.crcv := by unfold takeFault; split <;> rfl
@[simp] theorem takeFault_tbl : (s.takeFault c).tbl = s.tbl := by unfold takeFault; split <;> rfl
@[simp] theorem takeFault_pre : (s.takeFault c).pre = s.pre := by unfold takeFault; split <;> rfl
@[simp] theorem takeFault_stage : (s.takeFault c).stage = s.stage := by unfold takeFault; split <;> rfl
@[simp] theorem takeFault_fb : (s.takeFault c).fb = s.fb := by unfold takeFault; split <;> rfl
@[simp] theorem takeFault_off : (s.takeFault c).off = s.off := by unfold takeFault; split <;> rfl
@[simp] theorem takeFault_qcap : (s.takeFault c).qcap = s.qcap := by unfold takeFault; split <;> rfl
@[simp] theorem takeFault_qrd : (s.takeFault c).qrd = s.qrd := by unfold takeFault; split <;> rfl
@[simp] theorem takeFault_qwr : (s.takeFault c).qwr = s.qwr := by unfold takeFault; split <;> rfl
@[simp] theorem takeFault_qfull : (s.takeFault c).qfull = s.qfull := by unfold takeFault; split <;> rfl
@[simp] theorem takeFault_slots : (s.takeFault c).slots = s.slots := by unfold takeFault; split <;> rfl
@[simp] theorem takeFault_popHeld : (s.takeFault c).popHeld = s.popHeld := by unfold takeFault; split <;> rfl
@[simp] theorem takeFault_tx : (s.takeFault c).tx = s.tx := by unfold takeFault; split <;> rfl
@[simp] theorem takeFault_params : (s.takeFault c).params = s.params := by unfold takeFault; split <;> rfl
@[simp] theorem takeFault_ppIn : (s.takeFault c).ppIn = s.ppIn := by unfold takeFault; split <;> rfl
@[simp] theorem takeFault_cpIn : (s.takeFault c).cpIn = s.cpIn := by unfold takeFault; split <;> rfl
@[simp] theorem takeFault_ppResp : (s.takeFault c).ppResp = s.ppResp := by unfold takeFault; split <;> rfl
@[simp] theorem takeFault_cpResp : (s.takeFault c).cpResp = s.cpResp := by unfold takeFault; split <;> rfl
@[simp] theorem takeFault_turns : (s.takeFault c).turns = s.turns := by unfold takeFault; split <;> rfl
@[simp] theorem takeFault_rst : (s.takeFault c).rst = s.rst := by unfold takeFault; split <;> rfl
@[simp] theorem takeFault_draws : (s.takeFault c).draws = s.draws := by unfold takeFault; split <;> rfl

theorem takeFault_of_zero (h : s.fault = 0x00#8) : s.takeFault c = { s with fault := c.code } := if_pos h

theorem takeFault_of_ne_zero (h : s.fault ≠ 0x00#8) : s.takeFault c = s := if_neg h

/-! ### A port's pending bytes -/

@[simp] theorem setPortIn_fault : (s.setPortIn p d).fault = s.fault := by cases p <;> rfl
@[simp] theorem setPortIn_crcv : (s.setPortIn p d).crcv = s.crcv := by cases p <;> rfl
@[simp] theorem setPortIn_tbl : (s.setPortIn p d).tbl = s.tbl := by cases p <;> rfl
@[simp] theorem setPortIn_pre : (s.setPortIn p d).pre = s.pre := by cases p <;> rfl
@[simp] theorem setPortIn_stage : (s.setPortIn p d).stage = s.stage := by cases p <;> rfl
@[simp] theorem setPortIn_fb : (s.setPortIn p d).fb = s.fb := by cases p <;> rfl
@[simp] theorem setPortIn_off : (s.setPortIn p d).off = s.off := by cases p <;> rfl
@[simp] theorem setPortIn_qcap : (s.setPortIn p d).qcap = s.qcap := by cases p <;> rfl
@[simp] theorem setPortIn_qrd : (s.setPortIn p d).qrd = s.qrd := by cases p <;> rfl
@[simp] theorem setPortIn_qwr : (s.setPortIn p d).qwr = s.qwr := by cases p <;> rfl
@[simp] theorem setPortIn_qfull : (s.setPortIn p d).qfull = s.qfull := by cases p <;> rfl
@[simp] theorem setPortIn_slots : (s.setPortIn p d).slots = s.slots := by cases p <;> rfl
@[simp] theorem setPortIn_popHeld : (s.setPortIn p d).popHeld = s.popHeld := by cases p <;> rfl
@[simp] theorem setPortIn_tx : (s.setPortIn p d).tx = s.tx := by cases p <;> rfl
@[simp] theorem setPortIn_params : (s.setPortIn p d).params = s.params := by cases p <;> rfl
@[simp] theorem setPortIn_ppResp : (s.setPortIn p d).ppResp = s.ppResp := by cases p <;> rfl
@[simp] theorem setPortIn_cpResp : (s.setPortIn p d).cpResp = s.cpResp := by cases p <;> rfl
@[simp] theorem setPortIn_turns : (s.setPortIn p d).turns = s.turns := by cases p <;> rfl
@[simp] theorem setPortIn_rst : (s.setPortIn p d).rst = s.rst := by cases p <;> rfl
@[simp] theorem setPortIn_draws : (s.setPortIn p d).draws = s.draws := by cases p <;> rfl
@[simp] theorem setPortIn_poppend : (s.setPortIn p d).poppend = s.poppend := by cases p <;> rfl
@[simp] theorem setPortIn_portIn : (s.setPortIn p d).portIn p = d := by cases p <;> rfl
@[simp] theorem setPortIn_portIn_other : (s.setPortIn p d).portIn p.other = s.portIn p.other := by cases p <;> rfl

/-! ### Writing a slot and appending to TX -/

@[simp] theorem slotWrite_slots : (s.slotWrite i m).slots = s.slots.set i.toNat m := rfl
@[simp] theorem txAppend_tx : (s.txAppend d).tx = s.tx ++ d := rfl
@[simp] theorem slotWrite_fault : (s.slotWrite i m).fault = s.fault := rfl
@[simp] theorem slotWrite_crcv : (s.slotWrite i m).crcv = s.crcv := rfl
@[simp] theorem slotWrite_tbl : (s.slotWrite i m).tbl = s.tbl := rfl
@[simp] theorem slotWrite_pre : (s.slotWrite i m).pre = s.pre := rfl
@[simp] theorem slotWrite_stage : (s.slotWrite i m).stage = s.stage := rfl
@[simp] theorem slotWrite_fb : (s.slotWrite i m).fb = s.fb := rfl
@[simp] theorem slotWrite_off : (s.slotWrite i m).off = s.off := rfl
@[simp] theorem slotWrite_qcap : (s.slotWrite i m).qcap = s.qcap := rfl
@[simp] theorem slotWrite_qrd : (s.slotWrite i m).qrd = s.qrd := rfl
@[simp] theorem slotWrite_qwr : (s.slotWrite i m).qwr = s.qwr := rfl
@[simp] theorem slotWrite_qfull : (s.slotWrite i m).qfull = s.qfull := rfl
@[simp] theorem slotWrite_popHeld : (s.slotWrite i m).popHeld = s.popHeld := rfl
@[simp] theorem slotWrite_tx : (s.slotWrite i m).tx = s.tx := rfl
@[simp] theorem slotWrite_params : (s.slotWrite i m).params = s.params := rfl
@[simp] theorem slotWrite_ppIn : (s.slotWrite i m).ppIn = s.ppIn := rfl
@[simp] theorem slotWrite_cpIn : (s.slotWrite i m).cpIn = s.cpIn := rfl
@[simp] theorem slotWrite_ppResp : (s.slotWrite i m).ppResp = s.ppResp := rfl
@[simp] theorem slotWrite_cpResp : (s.slotWrite i m).cpResp = s.cpResp := rfl
@[simp] theorem slotWrite_turns : (s.slotWrite i m).turns = s.turns := rfl
@[simp] theorem slotWrite_rst : (s.slotWrite i m).rst = s.rst := rfl
@[simp] theorem slotWrite_draws : (s.slotWrite i m).draws = s.draws := rfl
@[simp] theorem txAppend_fault : (s.txAppend d).fault = s.fault := rfl
@[simp] theorem txAppend_crcv : (s.txAppend d).crcv = s.crcv := rfl
@[simp] theorem txAppend_tbl : (s.txAppend d).tbl = s.tbl := rfl
@[simp] theorem txAppend_pre : (s.txAppend d).pre = s.pre := rfl
@[simp] theorem txAppend_stage : (s.txAppend d).stage = s.stage := rfl
@[simp] theorem txAppend_fb : (s.txAppend d).fb = s.fb := rfl
@[simp] theorem txAppend_off : (s.txAppend d).off = s.off := rfl
@[simp] theorem txAppend_qcap : (s.txAppend d).qcap = s.qcap := rfl
@[simp] theorem txAppend_qrd : (s.txAppend d).qrd = s.qrd := rfl
@[simp] theorem txAppend_qwr : (s.txAppend d).qwr = s.qwr := rfl
@[simp] theorem txAppend_qfull : (s.txAppend d).qfull = s.qfull := rfl
@[simp] theorem txAppend_slots : (s.txAppend d).slots = s.slots := rfl
@[simp] theorem txAppend_popHeld : (s.txAppend d).popHeld = s.popHeld := rfl
@[simp] theorem txAppend_params : (s.txAppend d).params = s.params := rfl
@[simp] theorem txAppend_ppIn : (s.txAppend d).ppIn = s.ppIn := rfl
@[simp] theorem txAppend_cpIn : (s.txAppend d).cpIn = s.cpIn := rfl
@[simp] theorem txAppend_ppResp : (s.txAppend d).ppResp = s.ppResp := rfl
@[simp] theorem txAppend_cpResp : (s.txAppend d).cpResp = s.cpResp := rfl
@[simp] theorem txAppend_turns : (s.txAppend d).turns = s.turns := rfl
@[simp] theorem txAppend_rst : (s.txAppend d).rst = s.rst := rfl
@[simp] theorem txAppend_draws : (s.txAppend d).draws = s.draws := rfl

end Sys2Proof.Machine.State
end

