-- ==== Sys2Proof/Laws/Ops.lean ====
section
/-! SUPPORT. What the shared operations can do: ending a command, its guards, the push primitive, and the fields each leaves. -/

namespace Sys2Proof.Machine

variable {s t : State} {r : Result}

@[simp] theorem finish_ok : finish s (.ok t) = .next t := rfl

@[simp] theorem finish_error (c : FaultCode) : finish s (.error c) = .next (s.takeFault c) := rfl

/-- A command always answers a next state: the one its statements leave, or the state before it with a fault taken. -/
theorem finish_cases (h : finish s r = .next t) : r = .ok t ∨ ∃ c, r = .error c ∧ t = s.takeFault c := by
  cases r with
  | ok u => left; simpa [finish] using h
  | error c => right; exact ⟨c, rfl, by simpa [finish] using h.symm⟩

@[simp] theorem requireQueue_of_ne (h : s.qcap ≠ 0#16) : requireQueue s r = r := if_neg h

@[simp] theorem requireQueue_of_eq (h : s.qcap = 0#16) : requireQueue s r = .error .queueNotCreated := if_pos h

@[simp] theorem requireCrc_of_true (h : s.crcv = true) : requireCrc s r = r := by simp [requireCrc, h]

@[simp] theorem requireCrc_of_false (h : s.crcv = false) : requireCrc s r = .error .crcNotInit := by simp [requireCrc, h]

theorem requireQueue_ok (h : requireQueue s r = .ok t) : s.qcap ≠ 0#16 ∧ r = .ok t := by
  unfold requireQueue at h; split at h
  · cases h
  · exact ⟨‹_›, h⟩

theorem requireCrc_ok (h : requireCrc s r = .ok t) : s.crcv = true ∧ r = .ok t := by
  unfold requireCrc at h; split at h
  · exact ⟨‹_›, h⟩
  · cases h

/-- The state after a Message is stored. -/
theorem queuePush_of_room (m : Message) (hc : s.qcap ≠ 0#16) (hf : s.qfull = false) :
    queuePush s m = .ok { s with
      slots := s.slots.set s.qwr.toNat m, qwr := advance s.qwr s.qcap,
      qfull := s.qrd == advance s.qwr s.qcap, draws := s.draws + 1 } := by
  simp [queuePush, hc, hf]

/-- A full queue drops the Message and keeps every element. -/
theorem queuePush_of_full (m : Message) (hc : s.qcap ≠ 0#16) (hf : s.qfull = true) : queuePush s m = .ok s := by
  simp [queuePush, hc, hf]

theorem queuePush_of_no_queue (m : Message) (hc : s.qcap = 0#16) : queuePush s m = .error .queueNotCreated := by
  simp [queuePush, hc]

/-- Everything a push can do when it raises no fault. -/
theorem queuePush_cases {m : Message} (h : queuePush s m = .ok t) :
    s.qcap ≠ 0#16 ∧ (s.qfull = true ∧ t = s ∨
      s.qfull = false ∧ t = { s with
        slots := s.slots.set s.qwr.toNat m, qwr := advance s.qwr s.qcap,
        qfull := s.qrd == advance s.qwr s.qcap, draws := s.draws + 1 }) := by
  by_cases hc : s.qcap = 0#16
  · simp [queuePush_of_no_queue m hc] at h
  · refine ⟨hc, ?_⟩
    cases hf : s.qfull
    · right; rw [queuePush_of_room m hc hf] at h; exact ⟨rfl, by simpa using h.symm⟩
    · left; rw [queuePush_of_full m hc hf] at h; exact ⟨rfl, by simpa using h.symm⟩

/-- A push raises no fault but QUEUE_NOT_CREATED, and only on no queue. -/
theorem queuePush_error {m : Message} {c : FaultCode} (h : queuePush s m = .error c) :
    s.qcap = 0#16 ∧ c = .queueNotCreated := by
  by_cases hc : s.qcap = 0#16
  · rw [queuePush_of_no_queue m hc] at h; exact ⟨hc, by simpa using h.symm⟩
  · cases hf : s.qfull
    · simp [queuePush_of_room m hc hf] at h
    · simp [queuePush_of_full m hc hf] at h

theorem takeFault_fault_ne_zero (c : FaultCode) : (s.takeFault c).fault ≠ 0x00#8 := by
  by_cases h : s.fault = 0x00#8
  · rw [State.takeFault_of_zero s c h]
    change c.code ≠ 0x00#8
    cases c <;> decide
  · rwa [State.takeFault_of_ne_zero s c h]

theorem freeTail_length (k n : Nat) : (freeTail k n).length = n := by simp [freeTail]

theorem makeMessage_pay (src size : Byte) (d : List Byte) :
    (makeMessage s src size d).pay = d ++ freeTail s.draws (s.params.maxPayload - d.length) := rfl

theorem advance_toNat (i cap : Half) (h : cap ≠ 0#16) : (advance i cap).toNat = (i.toNat + 1) % cap.toNat := by
  have hc : 0 < cap.toNat := by
    rcases Nat.eq_zero_or_pos cap.toNat with h0 | h0
    · exact absurd (BitVec.eq_of_toNat_eq (by simpa using h0)) h
    · exact h0
  have := Nat.mod_lt (i.toNat + 1) hc
  have := cap.isLt
  simp [advance]; omega

theorem advance_lt (i cap : Half) (h : cap ≠ 0#16) : (advance i cap).toNat < cap.toNat := by
  rw [advance_toNat i cap h]
  apply Nat.mod_lt
  rcases Nat.eq_zero_or_pos cap.toNat with h0 | h0
  · exact absurd (BitVec.eq_of_toNat_eq (by simpa using h0)) h
  · exact h0

end Sys2Proof.Machine
end

