-- ==== Sys2Proof/Laws/Parser.lean ====
section
/-! SUPPORT. What one received byte can do (spec 42_parser.md R105 to R113): the parser's own elements change, and at the end of a
valid frame a Message may be pushed; nothing else. -/

namespace Sys2Proof.Machine

variable {s t : State} {b : Byte}

theorem feedPre_eq (b : Byte) (s : State) : feedPre b s =
    { s with
      fb := { s.fb with pre := s.fb.pre.setIfInBounds s.off.toNat b }
      stage := if preambleOffset s b = 4#8 then .addr else s.stage
      off := if preambleOffset s b = 4#8 then 0#8 else preambleOffset s b } := by
  simp only [feedPre]; split <;> rfl

theorem feedAddr_eq (b : Byte) (s : State) : feedAddr b s =
    { s with
      fb := { s.fb with addr := s.fb.addr.setIfInBounds s.off.toNat b }
      stage := if s.off + 1#8 = 2#8 then .size else s.stage
      off := if s.off + 1#8 = 2#8 then 0#8 else s.off + 1#8 } := by
  simp only [feedAddr]; split <;> rfl

theorem feedPay_eq (b : Byte) (s : State) : feedPay b s =
    { s with
      fb := { s.fb with pay := s.fb.pay.set s.off.toNat b }
      stage := if s.off + 1#8 = s.fb.size then .chk else s.stage
      off := if s.off + 1#8 = s.fb.size then 0#8 else s.off + 1#8 } := by
  simp only [feedPay]; split <;> rfl

/-- The state with a checksum byte stored and OFF advanced, in which Verify runs (R110). -/
def withChk (b : Byte) (s : State) : State :=
  { s with fb := { s.fb with chk := s.fb.chk.setIfInBounds s.off.toNat b }, off := s.off + 1#8 }

theorem feedChk_eq (b : Byte) (s : State) :
    feedChk b s = if s.off + 1#8 = 4#8 then verify (withChk b s) else .ok (withChk b s) := rfl

/-- The Message a verified frame becomes (R112). -/
def frameMessage (s : State) : Message :=
  makeMessage s s.fb.addr[1] s.fb.size (s.fb.pay.take s.fb.size.toNat)

theorem deliver_eq (s : State) : deliver s = queuePush s (frameMessage s) := rfl

/-- Everything Verify can do when it raises no fault. -/
theorem verify_cases (h : verify s = .ok t) :
    s.crcv = true ∧
      ((checksumMatches s = false ∨ s.qcap ≠ 0#16 ∧ s.qfull = true) ∧ t = parserRestart s ∨
       checksumMatches s = true ∧ s.qcap ≠ 0#16 ∧ s.qfull = false ∧
         t = { parserRestart s with
           slots := s.slots.set s.qwr.toNat (frameMessage s), qwr := advance s.qwr s.qcap,
           qfull := s.qrd == advance s.qwr s.qcap, draws := s.draws + 1 }) := by
  obtain ⟨hc, h⟩ := requireCrc_ok h
  refine ⟨hc, ?_⟩
  cases hm : checksumMatches s with
  | false =>
    simp only [hm, Bool.false_eq_true, if_false, Except.map, Except.ok.injEq] at h
    exact .inl ⟨.inl rfl, h.symm⟩
  | true =>
    simp only [hm, if_true, deliver_eq] at h
    cases hq : queuePush s (frameMessage s) with
    | error c => simp [hq, Except.map] at h
    | ok u =>
      simp only [hq, Except.map, Except.ok.injEq] at h
      subst h
      obtain ⟨hne, ⟨hf, rfl⟩ | ⟨hf, rfl⟩⟩ := queuePush_cases hq
      · exact .inl ⟨.inr ⟨hne, hf⟩, rfl⟩
      · exact .inr ⟨rfl, hne, hf, rfl⟩

/-- Verify raises CRC_NOT_INIT, or QUEUE_NOT_CREATED after a match, and no other fault. -/
theorem verify_error {c : FaultCode} (h : verify s = .error c) :
    s.crcv = false ∧ c = .crcNotInit ∨
      s.crcv = true ∧ checksumMatches s = true ∧ s.qcap = 0#16 ∧ c = .queueNotCreated := by
  cases hc : s.crcv with
  | false =>
    left; rw [verify, requireCrc_of_false hc] at h; exact ⟨rfl, by simpa using h.symm⟩
  | true =>
    right; rw [verify, requireCrc_of_true hc] at h
    cases hm : checksumMatches s with
    | false => simp [hm, Except.map] at h
    | true =>
      simp only [hm, if_true, deliver_eq] at h
      cases hq : queuePush s (frameMessage s) with
      | ok u => simp [hq, Except.map] at h
      | error e =>
        simp only [hq, Except.map, Except.error.injEq] at h
        obtain ⟨h1, h2⟩ := queuePush_error hq
        exact ⟨rfl, rfl, h1, h ▸ h2⟩

/-- One received byte changes the parser's own elements alone, or also stores one Message. -/
theorem feedByte_cases (h : feedByte b s = .ok t) :
    t = { s with fb := t.fb, stage := t.stage, off := t.off } ∨
    s.qcap ≠ 0#16 ∧ s.qfull = false ∧ s.stage = .chk ∧ s.off + 1#8 = 4#8 ∧ s.crcv = true ∧
      checksumMatches (withChk b s) = true ∧
      t = { parserRestart (withChk b s) with
        slots := s.slots.set s.qwr.toNat (frameMessage (withChk b s)), qwr := advance s.qwr s.qcap,
        qfull := s.qrd == advance s.qwr s.qcap, draws := s.draws + 1 } := by
  unfold feedByte at h
  split at h
  · cases h; left; rw [feedPre_eq]
  · cases h; left; rw [feedAddr_eq]
  · cases h; left; rfl
  · cases h; left; rw [feedPay_eq]
  · rename_i hs
    rw [feedChk_eq] at h
    split at h
    · obtain ⟨hc, ⟨_, rfl⟩ | ⟨hm, hne, hf, rfl⟩⟩ := verify_cases h
      · left; rfl
      · right; exact ⟨hne, hf, hs, ‹_›, hc, hm, rfl⟩
    · cases h; left; rfl

/-- A received byte raises a fault only as the fourth byte of the checksum (R111, R123). -/
theorem feedByte_error {c : FaultCode} (h : feedByte b s = .error c) :
    s.stage = .chk ∧ s.off + 1#8 = 4#8 ∧ verify (withChk b s) = .error c := by
  unfold feedByte at h
  split at h
  · cases h
  · cases h
  · cases h
  · cases h
  · rename_i hs
    rw [feedChk_eq] at h
    split at h
    · exact ⟨hs, ‹_›, h⟩
    · cases h

end Sys2Proof.Machine
end

