-- ==== Sys2Proof/Laws/Exec.lean ====
section
/-! SUPPORT. Everything a command can do, once: `exec_cases` says that a command ends in a fault taken, in the first step of a split
pop, or in one response over one of the writes of `Written`. Frames and invariants follow from it by cases. -/

namespace Sys2Proof.Machine

/-- What a command writes besides its response when it completes: nothing, or what its rule names. -/
inductive Written : Instr → State → State → Prop
  | nothing (i : Instr) (s : State) : (∀ b, i ≠ .feed b) → i ≠ .crcInit → (∀ n, i ≠ .qCreate n) → i ≠ .qClear →
      (∀ w, i ≠ .pSetpre w) → (∀ dst src d, i ≠ .pSend dst src d) → Written i s s
  | crcInit (s : State) : Written .crcInit s { s with tbl := crcTable, crcv := true }
  | create (n : Half) (s : State) : n ≠ 0#16 → n.toNat ≤ s.params.qslots →
      Written (.qCreate n) s { s with qcap := n, qrd := 0#16, qwr := 0#16, qfull := false }
  | push (src : Byte) (d : List Byte) (s : State) : d.length ≤ s.params.maxPayload → s.qcap ≠ 0#16 → s.qfull = false →
      Written (.qPush src d) s { s with
        slots := s.slots.set s.qwr.toNat (makeMessage s src (lenC d) d), qwr := advance s.qwr s.qcap,
        qfull := s.qrd == advance s.qwr s.qcap, draws := s.draws + 1 }
  | pop (s : State) : s.qcap ≠ 0#16 → s.isEmpty = false → s.params.popSplit = false →
      Written .qPop s { s with qrd := advance s.qrd s.qcap, qfull := false }
  | clear (s : State) : s.qcap ≠ 0#16 → Written .qClear s { s with qrd := s.qwr, qfull := false }
  | setpre (w : Word) (s : State) : Written (.pSetpre w) s { s with pre := preambleOf w }
  | send (dst src : Byte) (d : List Byte) (s : State) : s.crcv = true →
      Written (.pSend dst src d) s (s.txAppend (buildFrame s dst src d))
  | feed (b : Byte) (s u : State) : feedByte b s = .ok u → Written (.feed b) s u

theorem exec_cases {i : Instr} {s t : State} (h : exec i s = .next t) :
    (∃ c, t = s.takeFault c) ∨
    (i = .qPop ∧ s.params.popSplit = true ∧ s.isEmpty = false ∧ s.qcap ≠ 0#16 ∧
      t = { s with qrd := advance s.qrd s.qcap, popHeld := some (s.slotRead s.qrd) }) ∨
    ∃ u st r d, Written i s u ∧ t = u.respond i.port st r d ∧
      (st = .empty → i = .qPop ∧ s.isEmpty = true ∧ r = 0#32 ∧ d = []) ∧
      (i = .qPop → s.isEmpty = true ∨ s.params.popSplit = false) := by
  cases i with
  | feed b =>
    obtain h | ⟨c, -, rfl⟩ := finish_cases h
    · cases hb : feedByte b s with
      | error c => simp [hb, Except.map] at h
      | ok u =>
        simp only [hb, Except.map, Except.ok.injEq] at h
        exact .inr (.inr ⟨u, _, _, _, .feed b s u hb, h.symm, by simp, by simp⟩)
    · exact .inl ⟨c, rfl⟩
  | qPush src d =>
    obtain h | ⟨c, -, rfl⟩ := finish_cases h
    · split at h
      · cases h
      · rename_i hl
        cases hq : queuePush s (makeMessage s src (lenC d) d) with
        | error c => simp [hq, Except.map] at h
        | ok u =>
          simp only [hq, Except.map, Except.ok.injEq] at h
          subst h
          obtain ⟨hc, ⟨hf, rfl⟩ | ⟨hf, rfl⟩⟩ := queuePush_cases hq
          · exact .inr (.inr ⟨_, _, _, _, .nothing _ _ (by simp) (by simp) (by simp) (by simp) (by simp) (by simp),
              rfl, by simp, by simp⟩)
          · exact .inr (.inr ⟨_, _, _, _, .push src d s (by omega) hc hf, rfl, by simp, by simp⟩)
    · exact .inl ⟨c, rfl⟩
  | crcInit =>
    cases h
    exact .inr (.inr ⟨_, _, _, _, .crcInit s, rfl, by simp, by simp⟩)
  | crcReflect b =>
    cases h
    exact .inr (.inr ⟨_, _, _, _, .nothing _ _ (by simp) (by simp) (by simp) (by simp) (by simp) (by simp), rfl, by simp, by simp⟩)
  | pSetpre w =>
    cases h
    exact .inr (.inr ⟨_, _, _, _, .setpre w s, rfl, by simp, by simp⟩)
  | crcCompute d | crcConcat w d | crcSelfcheck w d | crcVerify d | pBuild dst src d =>
    obtain h | ⟨c, -, rfl⟩ := finish_cases h
    · obtain ⟨-, h⟩ := requireCrc_ok h
      cases h
      exact .inr (.inr ⟨_, _, _, _, .nothing _ _ (by simp) (by simp) (by simp) (by simp) (by simp) (by simp), rfl, by simp, by simp⟩)
    · exact .inl ⟨c, rfl⟩
  | pSend dst src d =>
    obtain h | ⟨c, -, rfl⟩ := finish_cases h
    · obtain ⟨hc, h⟩ := requireCrc_ok h
      cases h
      exact .inr (.inr ⟨_, _, _, _, .send dst src d s hc, rfl, by simp, by simp⟩)
    · exact .inl ⟨c, rfl⟩
  | qCreate n =>
    obtain h | ⟨c, -, rfl⟩ := finish_cases h
    · split at h
      · cases h
      · split at h
        · cases h
        · cases h
          exact .inr (.inr ⟨_, _, _, _, .create n s ‹_› (by omega), rfl, by simp, by simp⟩)
    · exact .inl ⟨c, rfl⟩
  | qIsempty | qIsfull | qUsed | qFree | qCapacity =>
    obtain h | ⟨c, -, rfl⟩ := finish_cases h
    · obtain ⟨-, h⟩ := requireQueue_ok h
      cases h
      exact .inr (.inr ⟨_, _, _, _, .nothing _ _ (by simp) (by simp) (by simp) (by simp) (by simp) (by simp), rfl, by simp, by simp⟩)
    · exact .inl ⟨c, rfl⟩
  | qClear =>
    obtain h | ⟨c, -, rfl⟩ := finish_cases h
    · obtain ⟨hc, h⟩ := requireQueue_ok h
      cases h
      exact .inr (.inr ⟨_, _, _, _, .clear s hc, rfl, by simp, by simp⟩)
    · exact .inl ⟨c, rfl⟩
  | qPop =>
    obtain h | ⟨c, -, rfl⟩ := finish_cases h
    · obtain ⟨hc, h⟩ := requireQueue_ok h
      cases he : s.isEmpty with
      | true =>
        simp only [he, if_true, Except.ok.injEq] at h
        exact .inr (.inr ⟨s, _, _, _, .nothing _ _ (by simp) (by simp) (by simp) (by simp) (by simp) (by simp), h.symm,
          by simp, by simp⟩)
      | false =>
        cases hs : s.params.popSplit with
        | true =>
          simp only [he, hs, Bool.false_eq_true, if_false, if_true, Except.ok.injEq] at h
          exact .inr (.inl ⟨rfl, rfl, rfl, hc, h.symm⟩)
        | false =>
          simp only [he, hs, Bool.false_eq_true, if_false, Except.ok.injEq] at h
          exact .inr (.inr ⟨_, _, _, _, .pop s hc he hs, h.symm, by simp, by simp⟩)
    · exact .inl ⟨c, rfl⟩

/-- A command always answers a next state (it completes, or it takes a fault). -/
theorem exec_next (i : Instr) (s : State) : ∃ t, exec i s = .next t := by
  have hf : ∀ r : Result, ∃ t, finish s r = .next t := by
    intro r; cases r <;> exact ⟨_, rfl⟩
  cases i with
  | crcInit | crcReflect _ | pSetpre _ => exact ⟨_, rfl⟩
  | _ => exact hf _

end Sys2Proof.Machine
end

