-- ==== Sys2Proof/Laws/Admission.lean ====
section
/-! SUPPORT. The lists of R50, R53 and R54 against the opcode map, what `decode` says of a header, and where responses go. -/

namespace Sys2Proof.Machine

/-- A row that is found stands in the map. -/
theorem opRow_mem (op : Byte) (r) (h : opRow op = some r) : r ∈ opcodeMap := List.mem_of_find?_eq_some h

/-- N of a trailer of the announced length is the header's N. -/
theorem le16_lenN (a b c d : Byte) (dd : List Byte) (h : dd.length = (headerN (fromLE32 [a,b,c,d])).toNat) :
    le16 (lenN dd) = [c, d] := by
  rw [← le16_headerN a b c d]; congr 1
  apply BitVec.eq_of_toNat_eq; simp [lenN, h]

/-- C of a trailer of the announced length is the header's C. -/
theorem lenC_eq (c : Byte) (dd : List Byte) (h : dd.length = c.toNat) : lenC dd = c := by
  apply BitVec.eq_of_toNat_eq; simp [lenC, h]

/-- R54's list is what the map leaves out. -/
theorem illegalOp_iff : ∀ op : Byte, illegalOp op ↔ opRow op = none := by decide +kernel

/-- R53's two lists are the map's two ports. -/
theorem legalOn_iff : ∀ op : Byte,
    (legalOn .pp op ↔ ∃ r, opRow op = some r ∧ r.port = .pp) ∧
    (legalOn .cp op ↔ ∃ r, opRow op = some r ∧ r.port = .cp) := by
  intro op
  have : ∀ op : Byte, (legalOn .pp op ↔ (opRow op).map (·.port) = some .pp) ∧
      (legalOn .cp op ↔ (opRow op).map (·.port) = some .cp) := by decide +kernel
  simpa using this op

/-- When a header is rejected as illegal. -/
theorem decode_illegal (op a b c : Byte) (rest) :
    decode (op::a::b::c::rest) = .error .illegalOpcode ↔ illegalOp op := by
  rw [illegalOp_iff]
  simp only [decode, headerOp_bytes]
  cases hr : opRow op with
  | none => simp
  | some r =>
    simp only [reduceCtorEq, iff_false]
    split
    · simp
    · split
      · cases ha : assemble (fromLE32 [op,a,b,c]) (rest.take (trailerLen r.format (fromLE32 [op,a,b,c]))) with
        | some i => simp
        | none =>
          exfalso
          have hop := opRow_op hr
          have hmem := opRow_mem _ _ hr
          simp only [opcodeMap, List.mem_append, List.mem_cons, List.not_mem_nil, or_false] at hmem
          rcases hmem with ((( h | h) | (h|h|h|h|h|h)) | (h|h|h|h|h|h|h|h)) | (h|h|h) <;> subst h <;> subst hop <;>
            simp [assemble, headerOp_bytes] at ha
      · simp

/-- The port of a legal opcode, whatever the rest of its header. -/
theorem decode_port (op a b c : Byte) (rest) (q : Port) (h : legalOn q op) :
   (∀ r, decode (op::a::b::c::rest) = .error (.reservedNonzero r) → r = q) ∧
   (∀ i re, decode (op::a::b::c::rest) = .ok (i, re) → i.port = q) := by
  have : ∃ r, opRow op = some r ∧ r.port = q := by
    cases q
    · exact (legalOn_iff op).1.mp h
    · exact (legalOn_iff op).2.mp h
  obtain ⟨r, hr, hq⟩ := this
  simp only [decode, headerOp_bytes, hr]
  constructor
  · intro x hx
    split at hx
    · simp at hx
    · split at hx
      · split at hx <;> simp at hx
      · simp at hx; rw [← hx, hq]
  · intro i re hx
    split at hx
    · simp at hx
    · split at hx
      · split at hx <;> simp at hx
        rename_i j ha
        obtain ⟨rfl, _⟩ := hx
        have hop := opRow_op hr
        have hmem := opRow_mem _ _ hr
        simp only [opcodeMap, List.mem_append, List.mem_cons, List.not_mem_nil, or_false] at hmem
        rcases hmem with ((( h | h) | (h|h|h|h|h|h)) | (h|h|h|h|h|h|h|h)) | (h|h|h) <;> subst h <;> subst hop <;>
            simp [assemble, headerOp_bytes] at ha <;> subst ha <;> exact hq
      · simp at hx

/-- R50's reserved fields, opcode by opcode, are the format's. -/
theorem reservedSet_iff (op a b c : Byte) (r) (h : opRow op = some r) :
    reservedSet op a b c ↔ reservedZero r (fromLE32 [op,a,b,c]) = false := by
  have hop := opRow_op h
  have hmem := opRow_mem _ _ h
  simp only [opcodeMap, List.mem_append, List.mem_cons, List.not_mem_nil, or_false] at hmem
  rcases hmem with ((( h | h) | (h|h|h|h|h|h)) | (h|h|h|h|h|h|h|h)) | (h|h|h) <;> subst h <;> subst hop <;>
    simp [reservedSet, reservedZero] <;> tauto

/-- A response goes to its own port. -/
theorem respond_portResp (u : State) (p st r d) :
    (u.respond p st r d).portResp p.other = u.portResp p.other ∧
    (u.respond p st r d).portResp p = u.portResp p ++ [⟨st, r, d⟩] := by
  cases p <;> exact ⟨rfl, rfl⟩

/-- What a command writes touches no response and not FAULT. -/
theorem Written.portResp {i s u} (h : Written i s u) (p) : u.portResp p = s.portResp p ∧ u.fault = s.fault := by
  cases h
  case feed b hb =>
    obtain h | ⟨hc, _, _, _, _, _, h⟩ := feedByte_cases hb <;> rw [h] <;> cases p <;> exact ⟨rfl, rfl⟩
  all_goals cases p <;> exact ⟨rfl, rfl⟩

end Sys2Proof.Machine
end

