-- ==== Sys2Proof/Laws/Crc.lean ====
section
/-! SUPPORT. The small laws of the CRC engine (spec 40_crc.md R67 to R72) and of the frame checksum and the frame builder
(30_encoding.md R64, 42_parser.md R116). -/

namespace Sys2Proof.Machine

/-- Undoing the final invert (R72). -/
theorem xor_xor_cancel (a b : Word) : a ^^^ b ^^^ b = a := by simp

/-- The table's entry at a byte (R68). -/
theorem crcTable_get (i : Byte) : crcTable[i.toNat] = crcTableEntry i := by
  simp [crcTable]

/-- The engine over two ranges in a row. -/
theorem crcRun_append (tbl) (c : Word) (x y : List Byte) : crcRun tbl c (x ++ y) = crcRun tbl (crcRun tbl c x) y := by
  simp [crcRun]

/-- One iteration of R67 is linear. -/
theorem crcShift_xor (a b : Word) : crcShift (a ^^^ b) = crcShift a ^^^ crcShift b := by
  unfold crcShift
  rw [BitVec.getLsbD_xor, BitVec.ushiftRight_xor_distrib]
  cases a.getLsbD 0 <;> cases b.getLsbD 0 <;>
    simp only [Bool.xor_false, Bool.xor_true, Bool.not_true, Bool.not_false, if_true, if_false, Bool.false_eq_true]
  · rw [BitVec.xor_assoc]
  · rw [BitVec.xor_assoc, BitVec.xor_assoc, BitVec.xor_comm (b >>> 1)]
  · apply BitVec.eq_of_getLsbD_eq; intro i hi; simp only [BitVec.getLsbD_xor]
    generalize (a >>> 1).getLsbD i = x; generalize (b >>> 1).getLsbD i = y; generalize (BitVec.getLsbD _ i) = z
    cases x <;> cases y <;> cases z <;> rfl

/-- So are n of them. -/
theorem crcShift_repeat_xor (n) (a b : Word) :
    Nat.repeat crcShift n (a ^^^ b) = Nat.repeat crcShift n a ^^^ Nat.repeat crcShift n b := by
  induction n with
  | zero => rfl
  | succ n ih => simp only [Nat.repeat, ih, crcShift_xor]

/-- While only zeros leave at the low end, n iterations shift. -/
theorem crcShift_repeat_shl (n) (k : Nat) (a : Word) (h : n ≤ k) : Nat.repeat crcShift n (a <<< k) = (a <<< k) >>> n := by
  induction n with
  | zero => simp [Nat.repeat]
  | succ n ih =>
    simp only [Nat.repeat, ih (by omega)]
    unfold crcShift
    have : ((a <<< k) >>> n).getLsbD 0 = false := by
      simp; intro h1 h2; omega
    rw [this, if_neg (by simp)]
    rw [← BitVec.shiftRight_add]

/-- A word is its low byte and the rest. -/
theorem word_split (x : Word) : x = (x.extractLsb' 0 8).setWidth 32 ^^^ ((x >>> 8) <<< 8) := by
  ext i hi
  simp
  by_cases h : i < 8
  · simp [h, BitVec.getLsbD_eq_getElem hi]
  · simp [h]; congr 1; omega

/-- One table read does eight iterations on the register with the byte taken in. -/
theorem crcStep_crcTable (c : Word) (b : Byte) : crcStep crcTable c b = Nat.repeat crcShift 8 (c ^^^ b.setWidth 32) := by
  conv_rhs => rw [word_split (c ^^^ b.setWidth 32)]
  rw [crcShift_repeat_xor, crcShift_repeat_shl 8 8 _ (by omega)]
  unfold crcStep
  simp only [crcTable_get, crcTableEntry]
  congr 1
  ext i hi
  simp
  by_cases h : i + 8 < 32
  · simp [show 8 + i < 32 by omega]
  · simp [BitVec.getLsbD_of_ge c (8+i) (by omega)]

/-- Only entry 0 has the top byte 0. -/
theorem crcTableEntry_top_zero : ∀ x : Byte, (crcTableEntry x).extractLsb' 24 8 = 0#8 → x = 0#8 := by
  decide +kernel

/-- The top bytes of the 256 entries are all different. -/
theorem crcTableEntry_top_inj (x y : Byte)
    (h : (crcTableEntry x).extractLsb' 24 8 = (crcTableEntry y).extractLsb' 24 8) : x = y := by
  have e : crcTableEntry (x ^^^ y) = crcTableEntry x ^^^ crcTableEntry y := by
    simp only [crcTableEntry, BitVec.setWidth_xor, crcShift_repeat_xor]
  have := crcTableEntry_top_zero (x ^^^ y) (by
    rw [e]
    ext i hi
    have := congrArg (fun z => z.getLsbD i) h
    simpa [hi] using this)
  exact BitVec.xor_eq_zero_iff.mp this

/-- A step's top byte is that of the entry it reads. -/
theorem crcStep_top (c : Word) (b : Byte) :
    (crcStep crcTable c b).extractLsb' 24 8 =
      (crcTableEntry ((c ^^^ b.setWidth 32).extractLsb' 0 8)).extractLsb' 24 8 := by
  unfold crcStep
  simp only [crcTable_get]
  ext i hi
  simp [BitVec.getLsbD_of_ge c (8+(24+i)) (by omega)]

/-- A step loses nothing of the register. -/
theorem crcStep_inj (c c' : Word) (b : Byte) (h : crcStep crcTable c b = crcStep crcTable c' b) : c = c' := by
  have h1 := congrArg (BitVec.extractLsb' 24 8) h
  rw [crcStep_top, crcStep_top] at h1
  have h2 := crcTableEntry_top_inj _ _ h1
  unfold crcStep at h
  simp only [h2] at h
  have h3 : c >>> 8 = c' >>> 8 := by
    have := congrArg (crcTable[((c' ^^^ b.setWidth 32).extractLsb' 0 8).toNat] ^^^ ·) h
    simpa [← BitVec.xor_assoc] using this
  ext i hi
  by_cases hh : i < 8
  · have := congrArg (fun z => z.getLsbD i) h2
    simpa [hh, hi, BitVec.getLsbD_eq_getElem hi] using this
  · have := congrArg (fun z => z.getLsbD (i-8)) h3
    simpa [show 8 + (i-8) = i by omega, BitVec.getLsbD_eq_getElem hi] using this

/-- Two different bytes leave two different registers. -/
theorem crcStep_ne (c : Word) (b b' : Byte) (h : b ≠ b') : crcStep crcTable c b ≠ crcStep crcTable c b' := by
  intro he
  have h1 := congrArg (BitVec.extractLsb' 24 8) he
  rw [crcStep_top, crcStep_top] at h1
  have h2 := crcTableEntry_top_inj _ _ h1
  apply h
  ext i hi
  have := congrArg (fun z => z.getLsbD i) h2
  simpa [hi, show i < 32 by omega] using this

/-- The engine over a range loses nothing of the register. -/
theorem crcRun_inj (d : List Byte) (c c' : Word) (h : crcRun crcTable c d = crcRun crcTable c' d) : c = c' := by
  induction d generalizing c c' with
  | nil => exact h
  | cons b d ih => exact crcStep_inj _ _ b (ih _ _ h)

/-- The frame checksum over one range (R64). -/
theorem frameCrc_eq (tbl) (dst src n : Byte) (p : List Byte) :
    frameCrc tbl dst src n p = crcCompute tbl ([dst, src, n] ++ p.take n.toNat) := by
  simp only [frameCrc, crcConcat, crcCompute, crcRun_append, BitVec.xor_assoc, BitVec.xor_self, BitVec.xor_zero]

/-- The parts of a built frame (R116). -/
theorem buildFrame_eq (s : State) (hp : s.params.Legal) (dst src : Byte) (d : List Byte) :
    let n := min d.length s.params.maxPayload
    let body := [dst, src, BitVec.ofNat 8 n] ++ d.take n
    buildFrame s dst src d = s.pre.toList ++ body ++ le32 (crcCompute s.tbl body) := by
  have := hp.1
  simp only [buildFrame, frameCrc_eq, clamp]
  have e : lenC (d.take (min d.length s.params.maxPayload)) = BitVec.ofNat 8 (min d.length s.params.maxPayload) := by
    simp [lenC]
  rw [e]
  have e2 : (BitVec.ofNat 8 (min d.length s.params.maxPayload)).toNat = min d.length s.params.maxPayload := by simp; omega
  rw [e2, List.take_take]; simp

end Sys2Proof.Machine
end

