-- ==== Sys2Proof/Laws/Queue.lean ====
section
/-! SUPPORT. The ring arithmetic of the queue (spec 41_queue.md R87, R89, R94) and what it holds after a push (R99). -/

namespace Sys2Proof.Machine

/-- A capacity that is not zero is positive. -/
theorem qcap_pos {n : Half} (h : n ≠ 0#16) : 0 < n.toNat := by
  rcases Nat.eq_zero_or_pos n.toNat with h0 | h0
  · exact absurd (BitVec.eq_of_toNat_eq (by simpa using h0)) h
  · exact h0

/-- The distance from the read to the write index, without the mod. -/
theorem ring_distance {c r w : Nat} (hr : r < c) (hw : w < c) :
    (w + c - r) % c = if r ≤ w then w - r else w + c - r := by
  split
  · rw [show w + c - r = (w - r) + c by omega, Nat.add_mod_right, Nat.mod_eq_of_lt (by omega)]
  · rw [Nat.mod_eq_of_lt (by omega)]

/-- An index one further in the ring. -/
theorem ring_succ {c r : Nat} (hr : r < c) : (r + 1) % c = if r + 1 = c then 0 else r + 1 := by
  split
  · next h => rw [h, Nat.mod_self]
  · rw [Nat.mod_eq_of_lt (by omega)]

/-- An index k further in the ring. -/
theorem ring_add {c r k : Nat} (hr : r < c) (hk : k < c) : (r + k) % c = if r + k < c then r + k else r + k - c := by
  split
  · rw [Nat.mod_eq_of_lt (by omega)]
  · rw [show r + k = (r + k - c) + c by omega, Nat.add_mod_right, Nat.mod_eq_of_lt (by omega)]; omega

/-- Used(S) while QFULL = 0 (R94). -/
theorem used_of_not_full {s : State} (h : s.qfull = false) :
    s.used = (s.qwr.toNat + s.qcap.toNat - s.qrd.toNat) % s.qcap.toNat := by
  simp [State.used, h]

/-- Used(S) while QFULL = 1 (R94). -/
theorem used_of_full {s : State} (h : s.qfull = true) : s.used = s.qcap.toNat := by simp [State.used, h]

/-- A push into a queue with room: one Message more, in the slot behind the others, which no held Message has. -/
theorem used_push {s : State} (hc : s.qcap ≠ 0#16) (h2 : s.qrd.toNat < s.qcap.toNat) (h3 : s.qwr.toNat < s.qcap.toNat)
    (hf : s.qfull = false) (m) :
   ({ s with
      slots := s.slots.set s.qwr.toNat m, qwr := advance s.qwr s.qcap,
      qfull := s.qrd == advance s.qwr s.qcap, draws := s.draws + 1 } : State).used = s.used + 1 ∧ s.used < s.qcap.toNat ∧
      s.slotIndex s.used = s.qwr.toNat ∧ ∀ k < s.used, s.slotIndex k ≠ s.qwr.toNat := by
  have hw := advance_toNat s.qwr s.qcap hc
  rw [ring_succ h3] at hw
  have hu := ring_distance h2 h3
  rw [← used_of_not_full hf] at hu
  have hlt : s.used < s.qcap.toNat := by split at hu <;> omega
  refine ⟨?_, hlt, ?_, ?_⟩
  · simp only [State.used]
    have hE : s.qrd = advance s.qwr s.qcap ↔ s.qrd.toNat = (advance s.qwr s.qcap).toNat := BitVec.toNat_inj.symm
    have hu2 := ring_distance h2 (advance_lt s.qwr s.qcap hc)
    rw [hu2]
    have e : (if s.qfull = true then s.qcap.toNat
      else (s.qwr.toNat + s.qcap.toNat - s.qrd.toNat) % s.qcap.toNat) = s.used := rfl
    rw [e]
    simp only [beq_iff_eq, hE]
    split at hu <;> split at hw <;> split <;> (try split) <;> omega
  · simp only [State.slotIndex]
    rw [ring_add h2 hlt]; split at hu <;> split <;> omega
  · intro k hk
    simp only [State.slotIndex]
    rw [ring_add h2 (by omega)]; split at hu <;> split <;> omega

/-- Every held index is below the capacity. -/
theorem slotIndex_lt {s : State} (hc : s.qcap ≠ 0#16) (k) : s.slotIndex k < s.qcap.toNat := Nat.mod_lt _ (qcap_pos hc)

/-- Reading a held slot. -/
theorem slotRead_slotIndex {s : State} (hc : s.qcap ≠ 0#16) (k) :
    s.slotRead (BitVec.ofNat 16 (s.slotIndex k)) =
      s.slots[s.slotIndex k]?.getD (freeMessage s.params s.draws (s.slotIndex k)) := by
  have := slotIndex_lt hc k
  have := s.qcap.isLt
  simp only [State.slotRead, BitVec.toNat_ofNat]
  rw [Nat.mod_eq_of_lt (by omega)]

/-- What the queue holds is what QCAP, QRD, QWR, QFULL and SLOT say, wherever the held slots exist. -/
theorem queue_congr {s t : State} (hc : s.qcap ≠ 0#16) (hl : s.qcap.toNat ≤ s.slots.length) (h1 : t.qcap = s.qcap)
    (h2 : t.qrd = s.qrd) (h3 : t.qwr = s.qwr) (h4 : t.qfull = s.qfull) (h5 : t.slots = s.slots) : t.queue = s.queue := by
  have hu : t.used = s.used := by simp [State.used, h1, h2, h3, h4]
  have hi : ∀ k, t.slotIndex k = s.slotIndex k := fun k => by simp [State.slotIndex, h1, h2]
  simp only [State.queue, hu]
  refine List.map_congr_left fun k _ => ?_
  have := slotIndex_lt hc k
  rw [slotRead_slotIndex (by rwa [h1]), slotRead_slotIndex hc, hi, h5, List.getElem?_eq_getElem (by omega)]; rfl

/-- A push into a queue with room puts its Message behind the others (R87, R99). -/
theorem queue_push {s : State} (hc : s.qcap ≠ 0#16) (hl : s.qcap.toNat ≤ s.slots.length) (h2 : s.qrd.toNat < s.qcap.toNat)
    (h3 : s.qwr.toNat < s.qcap.toNat) (hf : s.qfull = false) (m) :
   ({ s with
      slots := s.slots.set s.qwr.toNat m, qwr := advance s.qwr s.qcap,
      qfull := s.qrd == advance s.qwr s.qcap, draws := s.draws + 1 } : State).queue = s.queue ++ [m] := by
  obtain ⟨a, b, e, f⟩ := used_push hc h2 h3 hf m
  simp only [State.queue]
  rw [a, List.range_succ, List.map_append]
  congr 1
  · refine List.map_congr_left fun k hk => ?_
    rw [List.mem_range] at hk
    rw [slotRead_slotIndex (s := { s with
        slots := s.slots.set s.qwr.toNat m, qwr := advance s.qwr s.qcap,
        qfull := s.qrd == advance s.qwr s.qcap, draws := s.draws + 1 }) hc, slotRead_slotIndex hc]
    have hlt := slotIndex_lt hc k
    simp only [State.slotIndex] at f hlt ⊢
    rw [List.getElem?_set_ne (fun h => f k hk h.symm), List.getElem?_eq_getElem (by omega)]; rfl
  · simp only [List.map_cons, List.map_nil]
    rw [slotRead_slotIndex (s := { s with
        slots := s.slots.set s.qwr.toNat m, qwr := advance s.qwr s.qcap,
        qfull := s.qrd == advance s.qwr s.qcap, draws := s.draws + 1 }) hc]
    simp only [State.slotIndex] at e ⊢
    rw [e]; simp [List.getElem?_set_self (l := s.slots) (i := s.qwr.toNat) (by omega)]

/-- A pop of a queue that is not empty: one Message less, and every other one place nearer. -/
theorem used_pop {s : State} (hc : s.qcap ≠ 0#16) (h2 : s.qrd.toNat < s.qcap.toNat) (h3 : s.qwr.toNat < s.qcap.toNat)
    (hfull : s.qfull = true → s.qrd = s.qwr)
    (he : s.isEmpty = false) :
   ({ s with qrd := advance s.qrd s.qcap, qfull := false } : State).used + 1 = s.used ∧
   ∀ k, ({ s with qrd := advance s.qrd s.qcap, qfull := false } : State).slotIndex k = s.slotIndex (k+1) := by
  have hw := advance_toNat s.qrd s.qcap hc
  constructor
  · rw [ring_succ h2] at hw
    have hE : ∀ x y : Half, x = y ↔ x.toNat = y.toNat := fun x y => BitVec.toNat_inj.symm
    have hlt := advance_lt s.qrd s.qcap hc
    have e : ({ s with qrd := advance s.qrd s.qcap, qfull := false } : State).used = _ := used_of_not_full rfl
    simp only [] at e
    rw [ring_distance hlt h3] at e
    cases hf : s.qfull
    · have hu := ring_distance h2 h3
      rw [← used_of_not_full hf] at hu
      simp [State.isEmpty, hf, hE] at he
      split at hu <;> split at hw <;> split at e <;> omega
    · have := hfull hf
      rw [hE] at this
      rw [used_of_full hf]
      split at hw <;> split at e <;> omega
  · intro k
    simp only [State.slotIndex, hw]
    rw [Nat.mod_add_mod]; congr 1; omega

end Sys2Proof.Machine
end

