-- ==== Sys2Proof/Laws/Invariant.lean ====
section
/-! SUPPORT. The operations that keep the invariant of 10_state.md R31. -/

namespace Sys2Proof.Machine

/-- Fault entry keeps the invariant. -/
theorem inv_takeFault {s : State} (h : s.Inv) (c) : (s.takeFault c).Inv := by
  by_cases hf : s.fault = 0x00#8
  · rw [State.takeFault_of_zero _ _ hf]
    exact ⟨h.params, by change c.code.toNat ≤ 8; cases c <;> decide,
      h.table, h.slots, h.payload, h.parser, h.indices, h.full, h.queued, h.split, h.held⟩
  · rwa [State.takeFault_of_ne_zero _ _ hf]

/-- A response keeps it. -/
theorem inv_respond {s : State} (h : s.Inv) (p st r d) : (s.respond p st r d).Inv := by
  cases p <;> exact ⟨h.params, h.fault, h.table, h.slots, h.payload, h.parser, h.indices, h.full, h.queued, h.split, h.held⟩

/-- Port bytes, turns and draws have no part in it. -/
theorem inv_inputs {s : State} (h : s.Inv) (a b c d) : ({s with ppIn := a, cpIn := b, turns := c, draws := d} : State).Inv :=
  ⟨h.params, h.fault, h.table, h.slots, h.payload, h.parser, h.indices, h.full, h.queued, h.split, h.held⟩

/-- A stored Message keeps it. -/
theorem inv_push {s : State} (h : s.Inv) (hc : s.qcap ≠ 0#16) (hf : s.qfull = false) (m : Message)
    (hm : m.size.toNat ≤ s.params.maxPayload) :
   ({ s with
      slots := s.slots.set s.qwr.toNat m, qwr := advance s.qwr s.qcap,
      qfull := s.qrd == advance s.qwr s.qcap, draws := s.draws + 1 } : State).Inv := by
  obtain hh | ⟨h1, h2, h3⟩ := h.indices
  · exact absurd hh hc
  obtain ⟨a, b, e, f⟩ := used_push hc h2 h3 hf m
  refine ⟨h.params, h.fault, h.table, by simp [h.slots], h.payload, h.parser,
    .inr ⟨h1, h2, advance_lt _ _ hc⟩, ?_, ?_, h.split, h.held⟩
  · intro hq _; simpa using hq
  · intro _ k hk m' hm'
    rw [a] at hk
    simp only [State.slotIndex] at e f hm'
    by_cases hk' : k = s.used
    · subst hk'
      rw [e, List.getElem?_set_self (by have := h.slots; omega)] at hm'
      cases hm'; exact hm
    · rw [List.getElem?_set_ne (fun h => f k (by omega) h.symm)] at hm'
      exact h.queued hc k (by omega) m' hm'

/-- A received byte keeps it. -/
theorem inv_feedByte {s u : State} {b} (h : s.Inv) (hb : feedByte b s = .ok u) : u.Inv := by
  have hM := h.params.1
  have hp := h.parser
  unfold parserInRange at hp
  have hs1 : ∀ x y : Byte, x.toNat ≤ 3 → (x + 1#8 ≠ 4#8) → (x+1#8).toNat ≤ 3 := by intro x y; bv_omega
  unfold feedByte at hb
  split at hb <;> rename_i hst <;> simp only [hst] at hp
  · cases hb; rw [feedPre_eq]
    refine ⟨h.params, h.fault, h.table, h.slots, h.payload, ?_, h.indices, h.full, h.queued, h.split, h.held⟩
    unfold parserInRange
    by_cases ho : preambleOffset s b = 4#8
    · simp [ho]
    · simp only [ho, if_false, hst]
      unfold preambleOffset at ho ⊢
      split
      · next hq => simp only [hq, if_true] at ho; exact hs1 _ b hp ho
      · split <;> simp
  · cases hb; rw [feedAddr_eq]
    refine ⟨h.params, h.fault, h.table, h.slots, h.payload, ?_, h.indices, h.full, h.queued, h.split, h.held⟩
    unfold parserInRange
    by_cases ho : s.off + 1#8 = 2#8
    · simp [ho]
    · simp only [ho, if_false, hst]; bv_omega
  · cases hb
    refine ⟨h.params, h.fault, h.table, h.slots, h.payload, ?_, h.indices, h.full, h.queued, h.split, h.held⟩
    unfold parserInRange feedSize
    have e : (BitVec.ofNat 8 (clamp s b.toNat)).toNat = min b.toNat s.params.maxPayload := by
      simp [clamp]; omega
    by_cases ho : BitVec.ofNat 8 (clamp s b.toNat) = 0#8
    · simp [ho]
    · simp only [ho, if_false, e]
      have : (BitVec.ofNat 8 (clamp s b.toNat)).toNat ≠ 0 := fun h => ho (BitVec.eq_of_toNat_eq (by simpa using h))
      simp; omega
  · cases hb; rw [feedPay_eq]
    refine ⟨h.params, h.fault, h.table, h.slots, by simp [h.payload], ?_, h.indices, h.full, h.queued, h.split, h.held⟩
    unfold parserInRange
    by_cases ho : s.off + 1#8 = s.fb.size
    · simp [ho, hp]
    · simp only [ho, if_false, hst]; refine ⟨?_, hp.2⟩; bv_omega
  · have hw : (parserRestart (withChk b s)).Inv := by
      refine ⟨h.params, h.fault, h.table, h.slots, h.payload, ?_, h.indices, h.full, h.queued, h.split, h.held⟩
      simp [parserInRange, parserRestart]
    rw [feedChk_eq] at hb
    split at hb
    · obtain ⟨_, ⟨_, rfl⟩ | ⟨_, hc, hf, rfl⟩⟩ := verify_cases hb
      · exact hw
      · exact inv_push hw hc hf _ hp.2
    · rename_i ho
      cases hb
      refine ⟨h.params, h.fault, h.table, h.slots, h.payload, ?_, h.indices, h.full, h.queued, h.split, h.held⟩
      simp only [parserInRange, withChk, hst]
      exact ⟨hs1 _ b hp.1 ho, hp.2⟩

/-- The Message a pop takes has a legal size. -/
theorem popped_size {s : State} (h : s.Inv) (hc : s.qcap ≠ 0#16) (he : s.isEmpty = false) (hp : s.poppend = false) :
    (s.slotRead s.qrd).size.toNat ≤ s.params.maxPayload := by
  obtain hh | ⟨h1, h2, h3⟩ := h.indices
  · exact absurd hh hc
  have hlt : s.qrd.toNat < s.slots.length := by rw [h.slots]; omega
  apply h.queued hc 0
  · have := (used_pop hc h2 h3 (fun q => h.full q hp) he).1; omega
  · simp [State.slotIndex, Nat.mod_eq_of_lt h2, State.slotRead, hlt]

end Sys2Proof.Machine
end

