-- ==== Sys2Proof/Laws/PerInstr.lean ====
section
/-! SUPPORT. One law for every command: its port bytes are a header whose opcode has a row in R52's map, on the command's own
port, with no reserved bit set, and a trailer of the announced length from which the operands are assembled again. -/

namespace Sys2Proof.Laws.Encoded

def Statement (i : Instr) : Prop :=
  WellFormed i →
    ∃ b0 b1 b2 b3 trailer r, encode i = b0 :: b1 :: b2 :: b3 :: trailer ∧ opRow b0 = some r ∧ r.port = i.port ∧
      trailer.length = trailerLen r.format (fromLE32 [b0, b1, b2, b3]) ∧
      reservedZero r (fromLE32 [b0, b1, b2, b3]) = true ∧ assemble (fromLE32 [b0, b1, b2, b3]) trailer = some i

/-- The law for a command whose header bytes are fixed but for A, B and C. -/
theorem of_bytes {i : Instr} (b0 b1 b2 b3 : Byte) (trailer : List Byte) (r : OpRow)
    (he : encode i = b0 :: b1 :: b2 :: b3 :: trailer) (hr : opRow b0 = some r) (hp : r.port = i.port)
    (hn : trailer.length = trailerLen r.format (fromLE32 [b0, b1, b2, b3]))
    (hz : reservedZero r (fromLE32 [b0, b1, b2, b3]) = true)
    (ha : assemble (fromLE32 [b0, b1, b2, b3]) trailer = some i) : Statement i :=
  fun _ => ⟨b0, b1, b2, b3, trailer, r, he, hr, hp, hn, hz, ha⟩

theorem fromLE32_take_le32 (w : Word) (d : List Byte) : fromLE32 ((le32 w ++ d).take 4) = w := by
  rw [List.take_left' (le32_length w), fromLE32_le32]

/-- The header word of a command with N. -/
theorem headerN_lenN (a b : Byte) {d : List Byte} (h : d.length ≤ 65535) :
    (headerN (fromLE32 [a, b, (lenN d).extractLsb' 0 8, (lenN d).extractLsb' 8 8])).toNat = d.length := by
  have := headerN_of_le16 a b (lenN d)
  simp only [le16, List.cons_append, List.nil_append] at this
  rw [this, lenN_toNat h]

theorem feed (byte : Byte) : Statement (.feed byte) :=
  of_bytes 0x01 byte 0 0 [] ⟨0x01, .fb, .pp, false⟩ rfl rfl rfl rfl
    (by simp [reservedZero]) (by simp [assemble])

theorem qPush (src : Byte) (d : List Byte) : Statement (.qPush src d) := fun h => by
  have h' : d.length ≤ 255 := by simpa [WellFormed, Instr.wellFormed] using h
  exact of_bytes 0x02 src 0 (lenC d) d ⟨0x02, .fm, .pp, true⟩ rfl rfl rfl
    (by simp [trailerLen, lenC_toNat h']) (by simp [reservedZero]) (by simp [assemble]) h

theorem crcInit : Statement .crcInit :=
  of_bytes 0x10 0 0 0 [] ⟨0x10, .fn, .cp, false⟩ rfl rfl rfl rfl (by decide) (by decide)

theorem crcCompute (d : List Byte) : Statement (.crcCompute d) := fun h => by
  have h' : d.length ≤ 65535 := by simpa [WellFormed, Instr.wellFormed] using h
  exact of_bytes 0x11 0 _ _ d ⟨0x11, .fl, .cp, false⟩ rfl rfl rfl
    (headerN_lenN 0x11 0 h').symm (by simp [reservedZero]) (by simp [assemble]) h

theorem crcConcat (w : Word) (d : List Byte) : Statement (.crcConcat w d) := fun h => by
  have h' : d.length ≤ 65535 := by simpa [WellFormed, Instr.wellFormed] using h
  exact of_bytes 0x12 0 _ _ (le32 w ++ d) ⟨0x12, .fwl, .cp, false⟩ rfl rfl rfl
    (by simp only [List.length_append, le32_length, trailerLen, headerN_lenN 0x12 0 h'])
    (by simp [reservedZero]) (by simp [assemble, fromLE32_take_le32, List.drop_left' (le32_length w)]) h

theorem crcSelfcheck (w : Word) (d : List Byte) : Statement (.crcSelfcheck w d) := fun h => by
  have h' : d.length ≤ 65535 := by simpa [WellFormed, Instr.wellFormed] using h
  exact of_bytes 0x13 0 _ _ (le32 w ++ d) ⟨0x13, .fwl, .cp, false⟩ rfl rfl rfl
    (by simp only [List.length_append, le32_length, trailerLen, headerN_lenN 0x13 0 h'])
    (by simp [reservedZero]) (by simp [assemble, fromLE32_take_le32, List.drop_left' (le32_length w)]) h

theorem crcVerify (d : List Byte) : Statement (.crcVerify d) := fun h => by
  have h' : d.length ≤ 65535 := by simpa [WellFormed, Instr.wellFormed] using h
  exact of_bytes 0x14 0 _ _ d ⟨0x14, .fl, .cp, false⟩ rfl rfl rfl
    (headerN_lenN 0x14 0 h').symm (by simp [reservedZero]) (by simp [assemble]) h

theorem crcReflect (byte : Byte) : Statement (.crcReflect byte) :=
  of_bytes 0x15 byte 0 0 [] ⟨0x15, .fb, .cp, false⟩ rfl rfl rfl rfl
    (by simp [reservedZero]) (by simp [assemble])

theorem qCreate (capacity : Half) : Statement (.qCreate capacity) :=
  of_bytes 0x20 0 _ _ [] ⟨0x20, .fq, .cp, false⟩ rfl rfl rfl rfl (by simp [reservedZero]) (by
    have := headerN_of_le16 0x20 0 capacity
    simp only [assemble, headerOp_bytes]
    exact congrArg (fun n => some (Instr.qCreate n)) this)

theorem qIsempty : Statement .qIsempty :=
  of_bytes 0x21 0 0 0 [] ⟨0x21, .fn, .cp, false⟩ rfl rfl rfl rfl (by decide) (by decide)

theorem qIsfull : Statement .qIsfull :=
  of_bytes 0x22 0 0 0 [] ⟨0x22, .fn, .cp, false⟩ rfl rfl rfl rfl (by decide) (by decide)

theorem qUsed : Statement .qUsed :=
  of_bytes 0x23 0 0 0 [] ⟨0x23, .fn, .cp, false⟩ rfl rfl rfl rfl (by decide) (by decide)

theorem qFree : Statement .qFree :=
  of_bytes 0x24 0 0 0 [] ⟨0x24, .fn, .cp, false⟩ rfl rfl rfl rfl (by decide) (by decide)

theorem qCapacity : Statement .qCapacity :=
  of_bytes 0x25 0 0 0 [] ⟨0x25, .fn, .cp, false⟩ rfl rfl rfl rfl (by decide) (by decide)

theorem qPop : Statement .qPop :=
  of_bytes 0x26 0 0 0 [] ⟨0x26, .fn, .cp, false⟩ rfl rfl rfl rfl (by decide) (by decide)

theorem qClear : Statement .qClear :=
  of_bytes 0x27 0 0 0 [] ⟨0x27, .fn, .cp, false⟩ rfl rfl rfl rfl (by decide) (by decide)

theorem pSetpre (w : Word) : Statement (.pSetpre w) :=
  of_bytes 0x30 0 0 0 (le32 w) ⟨0x30, .fw, .cp, false⟩ rfl rfl rfl rfl (by decide)
    (by simpa [assemble] using fromLE32_take_le32 w [])

theorem pBuild (dst src : Byte) (d : List Byte) : Statement (.pBuild dst src d) := fun h => by
  have h' : d.length ≤ 255 := by simpa [WellFormed, Instr.wellFormed] using h
  exact of_bytes 0x31 dst src (lenC d) d ⟨0x31, .fm, .cp, false⟩ rfl rfl rfl
    (by simp [trailerLen, lenC_toNat h']) (by simp [reservedZero]) (by simp [assemble]) h

theorem pSend (dst src : Byte) (d : List Byte) : Statement (.pSend dst src d) := fun h => by
  have h' : d.length ≤ 255 := by simpa [WellFormed, Instr.wellFormed] using h
  exact of_bytes 0x32 dst src (lenC d) d ⟨0x32, .fm, .cp, false⟩ rfl rfl rfl
    (by simp [trailerLen, lenC_toNat h']) (by simp [reservedZero]) (by simp [assemble]) h

end Sys2Proof.Laws.Encoded
end

