-- ==== Sys2Proof/Laws/Ports.lean ====
section
/-! SUPPORT. What the choice of a port and the admission of a command can do, once for every later proof. -/

namespace Sys2Proof.Machine

variable {s t : State} {p : Port}

/-- The choice of a port falls on one that can move, and changes nothing but the turns and the draws. -/
theorem pickPort_some (h : pickPort s = some (p, t)) :
    portReady s p = true ∧ t = { s with turns := t.turns, draws := t.draws } := by
  unfold pickPort at h
  cases hp : portReady s .pp <;> cases hc : portReady s .cp <;> simp only [hp, hc] at h
  · cases h
  · cases h; exact ⟨hc, rfl⟩
  · cases h; exact ⟨hp, rfl⟩
  · split at h <;> simp only [Option.some.injEq, Prod.mk.injEq] at h <;> obtain ⟨h1, h2⟩ := h <;> subst h2
    · refine ⟨?_, rfl⟩; cases p <;> assumption
    · refine ⟨?_, rfl⟩; cases p <;> assumption

theorem pickPort_none (h : pickPort s = none) : portReady s .pp = false ∧ portReady s .cp = false := by
  unfold pickPort at h
  cases hp : portReady s .pp <;> cases hc : portReady s .cp <;> simp only [hp, hc] at h
  · exact ⟨rfl, rfl⟩
  · cases h
  · cases h
  · split at h <;> cases h

/-- A port that is served and has no pop to finish holds a whole command, or a header that faults by itself. -/
theorem decode_of_ready (h : portReady s p = true) (hp : p = .cp → s.poppend = false) :
    decode (s.portIn p) ≠ .error .partialCommand := by
  intro hd
  simp only [portReady, hd, Bool.or_false, Bool.and_eq_true, beq_iff_eq] at h
  rw [hp h.1] at h
  exact absurd h.2 (by simp)

theorem portReady_eq_true_iff :
    portReady s p = true ↔ p = .cp ∧ s.poppend = true ∨ decode (s.portIn p) ≠ .error .partialCommand := by
  unfold portReady
  simp only [Bool.or_eq_true, Bool.and_eq_true, beq_iff_eq, ne_eq]
  refine or_congr_right ?_
  split
  · simp_all
  · rename_i h; simp only [true_iff]; exact h

/-- The state in which a served port's command runs differs from the state before in the turns and the draws alone. -/
theorem Serves.eq (h : Serves s p t) : t = { s with turns := t.turns, draws := t.draws } := (pickPort_some h.2.2).2

theorem Serves.portIn (h : Serves s p t) (q : Port) : t.portIn q = s.portIn q := by rw [h.eq]; cases q <;> rfl

theorem Serves.poppend (h : Serves s p t) : t.poppend = s.poppend := by rw [h.eq]; rfl

theorem Serves.fault (h : Serves s p t) : t.fault = 0x00#8 := by rw [h.eq]; exact h.2.1

/-- The next move of a state whose step is on port `p`. -/
theorem Serves.nextMove (h : Serves s p t) : nextMove s = admission p t := by
  unfold Machine.nextMove
  simp [h.1, h.2.1, h.2.2]

theorem Serves.decode (h : Serves s p t) (hp : p = .cp → s.poppend = false) :
    Sys2Proof.decode (s.portIn p) ≠ .error .partialCommand := decode_of_ready (pickPort_some h.2.2).1 hp

/-- Admission on a port with no pop to finish. -/
theorem admission_of_no_pop (h : p = .cp → t.poppend = false) : admission p t =
    match Sys2Proof.decode (t.portIn p) with
    | .error .illegalOpcode => .reject t .illegalOpcode
    | .error (.reservedNonzero q) => .reject t (if q = p then .reservedNonzero else .wrongPort)
    | .error .partialCommand => .partialCommand
    | .ok (i, rest) => if i.port = p then .run i (t.setPortIn p rest) else .reject t .wrongPort := by
  unfold admission
  have h1 : ¬ (p = .cp ∧ t.poppend = true) := by rintro ⟨h1, h2⟩; simp [h h1] at h2
  refine (if_neg h1).trans ?_
  rcases Sys2Proof.decode (t.portIn p) with (_ | _ | _) | ⟨i, rest⟩ <;> rfl

/-- Everything the next move can be, with the state it runs from. -/
theorem nextMove_cases (s : State) :
    (s.rst = true ∧ nextMove s = .reset) ∨
    (s.rst = false ∧ s.fault ≠ 0x00#8 ∧ nextMove s = .stuck) ∨
    (s.rst = false ∧ s.fault = 0x00#8 ∧ (nextMove s = .idle ∨ nextMove s = .partialCommand)) ∨
    ∃ p t, Serves s p t ∧
      (p = .cp ∧ s.poppend = true ∧ nextMove s = .finishPop t ∨
       (∃ c, nextMove s = .reject t c) ∨
       ∃ i rest, Sys2Proof.decode (s.portIn p) = .ok (i, rest) ∧ i.port = p ∧ nextMove s = .run i (t.setPortIn p rest)) := by
  by_cases hr : s.rst = true
  · left; exact ⟨hr, by simp [nextMove, hr]⟩
  simp only [Bool.not_eq_true] at hr
  by_cases hf : s.fault = 0x00#8
  · cases hpick : pickPort s with
    | none =>
      right; right; left
      refine ⟨hr, hf, ?_⟩
      simp only [nextMove, hr, hf, hpick]
      by_cases he : s.ppIn = [] ∧ s.cpIn = []
      · left; simp [he]
      · right; simp [he]
    | some q =>
      obtain ⟨p, t⟩ := q
      have hs : Serves s p t := ⟨hr, hf, hpick⟩
      rw [hs.nextMove]
      by_cases hp : p = .cp ∧ t.poppend = true
      · right; right; right
        refine ⟨p, t, hs, .inl ⟨hp.1, hs.poppend ▸ hp.2, ?_⟩⟩
        simp [admission, hp]
      · have hq : p = .cp → t.poppend = false := fun h => by simpa [h] using hp
        rw [admission_of_no_pop hq, hs.portIn]
        have hd := hs.decode (fun h => hs.poppend ▸ hq h)
        cases hdec : Sys2Proof.decode (s.portIn p) with
        | error e =>
          right; right; right
          refine ⟨p, t, hs, .inr (.inl ?_)⟩
          cases e with
          | illegalOpcode => exact ⟨_, rfl⟩
          | reservedNonzero q => exact ⟨_, rfl⟩
          | partialCommand => exact absurd hdec hd
        | ok ir =>
          obtain ⟨i, rest⟩ := ir
          right; right; right
          by_cases hi : i.port = p
          · exact ⟨p, t, hs, .inr (.inr ⟨i, rest, hdec, hi, by simp [hi]⟩)⟩
          · exact ⟨p, t, hs, .inr (.inl ⟨.wrongPort, by simp [hi]⟩)⟩
  · right; left; exact ⟨hr, hf, by simp [nextMove, hr, hf]⟩

end Sys2Proof.Machine
end

