-- ==== Sys2Proof/Laws/Reception.lean ====
section
/-! SUPPORT. What a received byte sequence does (spec 42_parser.md R105 to R113): the small laws of `feedAll`, and the sequences
that deliver nothing. -/

namespace Sys2Proof.Machine

/-- FEED of a byte that raises no fault. -/
theorem exec_feed_of_ok {b s u} (h : feedByte b s = .ok u) : exec (.feed b) s = .next (u.respond .pp .ok 0#32 []) := by
  simp [exec, execFeed, h, Except.map]

/-- Reception of two byte sequences in a row. -/
theorem feedAll_append (x y : List Byte) (s : State) : feedAll (x ++ y) s = match feedAll x s with
   | .next t => feedAll y t | .fault r => .fault r | .refused r => .refused r := by
  induction x generalizing s with
  | nil => rfl
  | cons b x ih =>
    simp only [List.cons_append, feedAll]
    cases exec (.feed b) s with
    | next t => exact ih t
    | fault r => rfl
    | refused r => rfl

/-- The four checksum bytes once the last is stored. -/
theorem withChk_chk {s : State} (b : Byte) (hs : s.off = 3#8) :
    (withChk b s).fb.chk.toList = [s.fb.chk[0], s.fb.chk[1], s.fb.chk[2], b] := by
  obtain ⟨l, hl⟩ : ∃ l, l = s.fb.chk := ⟨_, rfl⟩
  simp only [withChk, hs, ← hl]
  rcases l with ⟨⟨l⟩, h⟩
  match l, h with
  | [a,b,c,d], _ => rfl

/-- The parser's own elements and the responses of the producer port apart, two states are equal. -/
def Quiet (s t : State) : Prop := t = { s with fb := t.fb, stage := t.stage, off := t.off, ppResp := t.ppResp }

theorem Quiet.refl (s) : Quiet s s := rfl

theorem Quiet.trans {s t u} (h : Quiet s t) (h2 : Quiet t u) : Quiet s u := by
  unfold Quiet at *; rw [h2, h]

/-- Reception of `x` leads from `s` to `t`, and neither it nor any first part of it delivers anything. -/
def QuietRun (x : List Byte) (s t : State) : Prop :=
  feedAll x s = .next t ∧ Quiet s t ∧ ∀ k, ∃ u, feedAll (x.take k) s = .next u ∧ Quiet s u

theorem QuietRun.nil (s) : QuietRun [] s s := ⟨rfl, .refl s, fun k => ⟨s, by simp [feedAll], .refl s⟩⟩

/-- Two quiet receptions in a row. -/
theorem QuietRun.append {x y s t u} (h : QuietRun x s t) (h2 : QuietRun y t u) : QuietRun (x ++ y) s u := by
  refine ⟨by rw [feedAll_append, h.1]; exact h2.1, h.2.1.trans h2.2.1, ?_⟩
  intro k
  rw [List.take_append]
  by_cases hk : k ≤ x.length
  · rw [Nat.sub_eq_zero_of_le hk]; simpa using h.2.2 k
  · obtain ⟨v, hv, hp⟩ := h2.2.2 (k - x.length)
    refine ⟨v, ?_, h.2.1.trans hp⟩
    rw [List.take_of_length_le (by omega), feedAll_append, h.1]; exact hv

/-- One byte that delivers nothing. -/
theorem QuietRun.one {b s u} (h : feedByte b s = .ok u) (hp : Quiet s u) : QuietRun [b] s (u.respond .pp .ok 0#32 []) := by
  have e := exec_feed_of_ok h
  have hp' : Quiet s (u.respond .pp .ok 0#32 []) := hp.trans rfl
  refine ⟨by simp [feedAll, e], hp', ?_⟩
  intro k
  cases k with
  | zero => exact ⟨s, rfl, .refl s⟩
  | succ k => exact ⟨_, by simp [feedAll, e], hp'⟩

/-- From stage PRE at offset 0 the four bytes of PRE are found. -/
theorem quietRun_preamble (s : State) (hst : s.stage = .pre) (hoff : s.off = 0#8) :
    ∃ t, QuietRun s.pre.toList s t ∧ t.stage = .addr ∧ t.off = 0#8 ∧ t.fb.pay = s.fb.pay := by
  have e : s.pre.toList = [s.pre[0]] ++ ([s.pre[1]] ++ ([s.pre[2]] ++ [s.pre[3]])) := by
    obtain ⟨l, hl⟩ : ∃ l, l = s.pre := ⟨_, rfl⟩
    rw [← hl]
    rcases l with ⟨⟨l⟩, h⟩
    match l, h with
    | [a,b,c,d], _ => rfl
  let st (v : State) (o : Byte) (k : Nat) (b : Byte) : State :=
    ({ v with fb := { v.fb with pre := v.fb.pre.setIfInBounds k b }, off := o, stage := if o = 0#8 then .addr else .pre } : State)
  have q (v : State) (o k : Nat) (hk : k < 4) (h : v.stage = .pre) (ho : v.off = BitVec.ofNat 8 k) :
      QuietRun [v.pre[k]] v ((st v (if k = 3 then 0#8 else BitVec.ofNat 8 (k+1)) k v.pre[k]).respond .pp .ok 0#32 []) := by
    refine QuietRun.one ?_ ?_
    · simp only [feedByte, h, feedPre_eq, st]
      have : k = 0 ∨ k = 1 ∨ k = 2 ∨ k = 3 := by omega
      rcases this with rfl | rfl | rfl | rfl <;> simp [preambleOffset, ho]
    · rfl
  have q0 := q s 1 0 (by omega) hst (by rw [hoff])
  set s1 := (st s (if 0 = 3 then 0#8 else BitVec.ofNat 8 (0+1)) 0 s.pre[0]).respond .pp .ok 0#32 [] with hs1
  have q1 := q s1 2 1 (by omega) (by simp [hs1, st]) (by simp [hs1, st])
  have e1 : s1.pre = s.pre := by simp [hs1, st]
  rw [e1] at q1
  set s2 := (st s1 (if 1 = 3 then 0#8 else BitVec.ofNat 8 (1+1)) 1 s.pre[1]).respond .pp .ok 0#32 [] with hs2
  have q2 := q s2 3 2 (by omega) (by simp [hs2, st]) (by simp [hs2, st])
  have e2 : s2.pre = s.pre := by rw [hs2]; simp [st, e1]
  rw [e2] at q2
  set s3 := (st s2 (if 2 = 3 then 0#8 else BitVec.ofNat 8 (2+1)) 2 s.pre[2]).respond .pp .ok 0#32 [] with hs3
  have q3 := q s3 3 3 (by omega) (by simp [hs3, st]) (by simp [hs3, st])
  have e3 : s3.pre = s.pre := by rw [hs3]; simp [st, e2]
  rw [e3] at q3
  rw [e]
  refine ⟨_, q0.append (q1.append (q2.append q3)), by simp [st], by simp [st], by simp [st, hs3, hs2, hs1]⟩

/-- FB.size payload bytes fill FB.pay and lead to stage CHK. -/
theorem quietRun_payload (p : List Byte) : ∀ (s : State) (o : Nat), s.stage = .pay → s.off = BitVec.ofNat 8 o →
    o + p.length = s.fb.size.toNat → p ≠ [] →
    s.fb.size.toNat ≤ s.fb.pay.length →
    ∃ t, QuietRun p s t ∧ t.stage = .chk ∧ t.off = 0#8 ∧ t.fb.size = s.fb.size ∧
      t.fb.addr = s.fb.addr ∧ t.fb.pay.length = s.fb.pay.length ∧
      t.fb.pay.take s.fb.size.toNat = s.fb.pay.take o ++ p := by
  induction p with
  | nil => intro s o _ _ _ h; exact absurd rfl h
  | cons b p ih =>
    intro s o hs ho hl _ hlen
    have h255 := s.fb.size.isLt
    simp only [List.length_cons] at hl
    have on : s.off.toNat = o := by rw [ho]; simp; omega
    have eq1 : (s.off + 1#8 = s.fb.size) ↔ o + 1 = s.fb.size.toNat := by
      constructor <;> intro h <;> bv_omega
    have q := QuietRun.one (b := b) (s := s) (u := feedPay b s) (by simp [feedByte, hs]) (by rw [feedPay_eq]; rfl)
    by_cases hp : p = []
    · subst hp
      have : o + 1 = s.fb.size.toNat := by simpa using hl
      refine ⟨_, q, ?_⟩
      rw [feedPay_eq]
      simp [eq1.mpr this, on]
      rw [← this]
      rw [List.take_add_one]
      simp [show o < s.fb.pay.length by omega, List.take_set_of_le]
    · have : ¬ (o + 1 = s.fb.size.toNat) := by
        have : 0 < p.length := List.length_pos_iff.mpr hp
        omega
      have this' : ¬ (s.off + 1#8 = s.fb.size) := fun h => this (eq1.mp h)
      obtain ⟨t, h1, h2, h3, h4, h5, h6, h7⟩ := ih ((feedPay b s).respond .pp .ok 0#32 []) (o+1)
        (by rw [feedPay_eq]; simp [this', hs])
        (by rw [feedPay_eq]; simp only [State.respond_off]; rw [if_neg this', ho, BitVec.ofNat_add])
        (by rw [feedPay_eq]; simp; omega) hp (by rw [feedPay_eq]; simpa using hlen)
      refine ⟨t, q.append h1, h2, h3, ?_⟩
      rw [feedPay_eq] at h4 h5 h6 h7
      simp only [State.respond_fb] at h4 h5 h6 h7
      refine ⟨h4, h5, by rw [h6]; simp, ?_⟩
      rw [h7, List.take_add_one]
      simp [on, show o < s.fb.pay.length by omega, List.take_set_of_le]

end Sys2Proof.Machine
end

