-- ==== Sys2Proof/Tests/Slice0.lean ====
section
/-! SUPPORT. The model's own tests: ill-formed commands, the decoding of every command from words written out from 30_encoding.md
and 95_test_vectors.md, one or two steps a command with the results that 95_test_vectors.md and the rules' own examples give,
and for each obligation with hypotheses concrete values that meet them, clause by clause. -/

namespace Sys2Proof.Machine.Tests

/-- The next state of an outcome, if it has one. -/
def got : Host.Outcome State Fault Refusal → Option State
  | .next t => some t
  | .fault _ => none
  | .refused _ => none

/-- Four slots of MAX_PAYLOAD = 8 bytes. -/
def store : List Message :=
  [⟨0x0A, 1, 0xA1 :: List.replicate 7 0⟩, ⟨0x0B, 0, List.replicate 8 0⟩] ++
  [⟨0x02, 2, 0x48 :: 0x69 :: List.replicate 6 0⟩, ⟨0x0D, 8, List.replicate 8 0xFF⟩]

/-- A booted LMCORE(MAX_PAYLOAD=8,QSLOTS=4,POP_SPLIT=0) with a queue of capacity 3 that holds the Messages of slots 2 and 0. -/
def ready : State :=
  { fault := 0, crcv := true, tbl := crcTable, pre := defaultPreamble, stage := .pre,
    fb := ⟨#v[0, 0, 0, 0], #v[0, 0], 0, List.replicate 8 0, #v[0, 0, 0, 0]⟩, off := 0,
    qcap := 3, qrd := 2, qwr := 1, qfull := false, slots := store, popHeld := none, tx := [],
    params := ⟨8, 4, false⟩, ppIn := [], cpIn := [], ppResp := [], cpResp := [], turns := [], rst := false, draws := 0 }

/-- The same, full. -/
def full : State := { ready with qwr := 2, qfull := true }

/-- The same with an empty queue. -/
def empty : State := { ready with qwr := 2 }

/-- The same before boot. -/
def unbooted : State := { ready with crcv := false, qcap := 0, qrd := 0, qwr := 0 }

/-- The same with POP_SPLIT = 1. -/
def splitting : State := { ready with params := ⟨8, 4, true⟩ }

/-- In stage PAY, before the last of two payload bytes. -/
def paying : State := { ready with stage := .pay, off := 1, fb := { ready.fb with size := 2 } }

/-- Frame F1 of 95_test_vectors.md, before its last byte `5E`. -/
def checking : State :=
  { ready with
    stage := .chk, off := 3
    fb := ⟨#v[0xAA, 0xBB, 0xCC, 0xDD], #v[0x01, 0x02], 2, 0x48 :: 0x69 :: List.replicate 6 0, #v[0xB9, 0xDE, 0x01, 0]⟩ }

/-! ### Ill-formed commands are refused by the check -/

theorem test_push_256_ill_formed : ¬ WellFormed (.qPush 0 (List.replicate 256 0)) := by
  simp only [WellFormed, Instr.wellFormed, fitsC, List.length_replicate]; decide
theorem test_build_256_ill_formed : ¬ WellFormed (.pBuild 0 0 (List.replicate 256 0)) := by
  simp only [WellFormed, Instr.wellFormed, fitsC, List.length_replicate]; decide
theorem test_send_256_ill_formed : ¬ WellFormed (.pSend 0 0 (List.replicate 256 0)) := by
  simp only [WellFormed, Instr.wellFormed, fitsC, List.length_replicate]; decide
/-- 65536 data bytes, one more than N can count. -/
theorem test_data_65536_ill_formed : ∃ d : List Byte, d.length = 65536 ∧
    ¬ WellFormed (.crcCompute d) ∧ ¬ WellFormed (.crcConcat 0 d) ∧ ¬ WellFormed (.crcSelfcheck 0 d) ∧
      ¬ WellFormed (.crcVerify d) := by
  have h : ∀ d : List Byte, d.length = 65536 → ¬ WellFormed (.crcCompute d) ∧ ¬ WellFormed (.crcConcat 0 d) ∧
      ¬ WellFormed (.crcSelfcheck 0 d) ∧ ¬ WellFormed (.crcVerify d) := by
    intro d hd; simp [WellFormed, Instr.wellFormed, hd]
  exact ⟨List.replicate 65536 0, List.length_replicate, h _ List.length_replicate⟩

/-! ### Decoding: H least significant byte first, then the trailer (95_test_vectors.md) -/

theorem test_decode_feed : decode [0x01, 0xAA, 0x00, 0x00] = .ok (.feed 0xAA, []) := by decide
theorem test_decode_push : decode [0x02, 0x05, 0x00, 0x01, 0x11] = .ok (.qPush 0x05 [0x11], []) := by decide
theorem test_decode_crc_init : decode [0x10, 0x00, 0x00, 0x00] = .ok (.crcInit, []) := by decide
theorem test_decode_compute :
    decode [0x11, 0x00, 0x03, 0x00, 0x01, 0x02, 0x02] = .ok (.crcCompute [0x01, 0x02, 0x02], []) := by decide
theorem test_decode_concat :
    decode [0x12, 0x00, 0x02, 0x00, 0x8B, 0xB0, 0xBB, 0x22, 0x48, 0x69] = .ok (.crcConcat 0x22BBB08B [0x48, 0x69], []) := by
  decide
theorem test_decode_selfcheck :
    decode [0x13, 0x00, 0x01, 0x00, 0x43, 0xBE, 0xB7, 0xE8, 0x61] = .ok (.crcSelfcheck 0xE8B7BE43 [0x61], []) := by decide
theorem test_decode_verify : decode [0x14, 0x00, 0x04, 0x00, 0, 0, 0, 0] = .ok (.crcVerify [0, 0, 0, 0], []) := by decide
theorem test_decode_reflect : decode [0x15, 0x12, 0x00, 0x00] = .ok (.crcReflect 0x12, []) := by decide
theorem test_decode_create : decode [0x20, 0x00, 0x11, 0x00] = .ok (.qCreate 17, []) := by decide
theorem test_decode_isempty : decode [0x21, 0x00, 0x00, 0x00] = .ok (.qIsempty, []) := by decide
theorem test_decode_isfull : decode [0x22, 0x00, 0x00, 0x00] = .ok (.qIsfull, []) := by decide
theorem test_decode_used : decode [0x23, 0x00, 0x00, 0x00] = .ok (.qUsed, []) := by decide
theorem test_decode_free : decode [0x24, 0x00, 0x00, 0x00] = .ok (.qFree, []) := by decide
theorem test_decode_capacity : decode [0x25, 0x00, 0x00, 0x00] = .ok (.qCapacity, []) := by decide
theorem test_decode_pop : decode [0x26, 0x00, 0x00, 0x00] = .ok (.qPop, []) := by decide
theorem test_decode_clear : decode [0x27, 0x00, 0x00, 0x00] = .ok (.qClear, []) := by decide
theorem test_decode_setpre :
    decode [0x30, 0x00, 0x00, 0x00, 0xAA, 0xBB, 0xCC, 0xDD] = .ok (.pSetpre 0xDDCCBBAA, []) := by decide
theorem test_decode_build :
    decode [0x31, 0x01, 0x02, 0x02, 0x48, 0x69] = .ok (.pBuild 0x01 0x02 [0x48, 0x69], []) := by decide
theorem test_decode_send : decode [0x32, 0x10, 0x20, 0x00] = .ok (.pSend 0x10 0x20 [], []) := by decide

/-- The port stream of program P1 holds three commands (95_test_vectors.md). -/
theorem test_decode_stream :
    decode [0x10, 0, 0, 0, 0x20, 0, 4, 0, 0x31, 1, 2, 2, 0x48, 0x69] =
      .ok (.crcInit, [0x20, 0, 4, 0, 0x31, 1, 2, 2, 0x48, 0x69]) := by decide

/-- A word of the opcode table, its trailer filled with zeros. -/
theorem test_table_word : decodeTableWord 32 0x00020011 = some (.crcCompute [0, 0]) ∧ decodeTableWord 32 0x16 = none := by
  decide

/-- The first step after reset runs the delivered command. -/
theorem test_fetch_word :
    (got (step (State.reset.withFetchWord 32 0x0000AA01))).map (fun t => (t.stage, t.off, t.ppIn)) = some (.pre, 1, []) := by
  decide

/-! ### Faults at admission (95_test_vectors.md, X-1 to X-9) -/

theorem test_x1 : (got (step (deliverTo State.reset .cp [0, 0, 0, 0]))).map (·.fault) = some 0x01 := by decide
theorem test_x4 : (got (step (deliverTo State.reset .cp [0x01, 0xAA, 0, 0]))).map (·.fault) = some 0x03 := by decide
theorem test_x5 : (got (step (deliverTo State.reset .pp [0x10, 0, 0, 0]))).map (·.fault) = some 0x03 := by decide
theorem test_x6 : (got (step (deliverTo State.reset .cp [0x01, 0xAA, 1, 0]))).map (·.fault) = some 0x03 := by decide
theorem test_x7 : (got (step (deliverTo State.reset .pp [0x01, 0xAA, 1, 0]))).map (·.fault) = some 0x02 := by decide
theorem test_x9 : (got (step (deliverTo ready .pp [0x02, 5, 1, 1, 0x11]))).map (·.fault) = some 0x02 := by decide
theorem test_x21 : step { ready with fault := 5, cpIn := [0x10, 0, 0, 0] } = .fault (.stuck 5) := by rfl

/-! ### One step of each command (95_test_vectors.md and the rules' own examples) -/

/-- P-5: in `AA BB AA …` the third byte mismatches and restarts the search at offset 1. -/
theorem test_feed_restart : (got (exec (.feed 0xAA) { ready with off := 2 })).map (fun t => (t.stage, t.off)) = some (.pre, 1) := by
  decide
/-- P-1: the last byte of F1 delivers `02 02 48 69`. -/
theorem test_feed_delivers :
    (got (exec (.feed 0x5E) checking)).map (fun t => (t.stage, t.off, t.qwr, t.qfull, (t.slots[1]?).map Message.view)) =
      some (.pre, 0, 2, true, some [0x02, 0x02, 0x48, 0x69]) := by decide +kernel
/-- R88's example, on an empty queue of capacity 2. -/
theorem test_push :
    (got (exec (.qPush 0x05 [0x11]) { empty with qcap := 2, qrd := 0, qwr := 0 })).map
      (fun t => (t.qwr, t.qfull, (t.slots[0]?).map Message.view)) = some (1, false, some [0x05, 0x01, 0x11]) := by decide
/-- X-20: nine bytes at MAX_PAYLOAD = 8. -/
theorem test_push_too_large :
    (got (exec (.qPush 0x05 (List.replicate 9 0)) unbooted)).map (·.fault) = some 0x08 := by decide
/-- R70's example. -/
theorem test_crc_init : (got (exec .crcInit unbooted)).map (fun t => (t.crcv, t.tbl[1])) = some (true, 0x77073096) := by decide
/-- P3, line 2. -/
theorem test_compute :
    (got (exec (.crcCompute [0x01, 0x02, 0x02]) ready)).map (·.cpResp) = some [⟨.ok, 0x22BBB08B, []⟩] := by decide +kernel
/-- P3, line 3. -/
theorem test_concat :
    (got (exec (.crcConcat 0x22BBB08B [0x48, 0x69]) ready)).map (·.cpResp) = some [⟨.ok, 0x5E01DEB9, []⟩] := by decide +kernel
/-- R75's example. -/
theorem test_selfcheck :
    (got (exec (.crcSelfcheck 0xE8B7BE43 [0x61]) ready)).map (·.cpResp) = some [⟨.ok, 1, []⟩] ∧
    (got (exec (.crcSelfcheck 0xE8B7BE42 [0x61]) ready)).map (·.cpResp) = some [⟨.ok, 0, []⟩] := by decide +kernel
/-- P3, line 5. -/
theorem test_verify :
    (got (exec (.crcVerify [0x01, 0x02, 0x02, 0x48, 0x69, 0xB9, 0xDE, 0x01, 0x5E]) ready)).map (·.cpResp) =
      some [⟨.ok, 1, []⟩] := by decide +kernel
/-- R76's corner cases: fewer than four bytes give 0. -/
theorem test_verify_short : (got (exec (.crcVerify [0, 0, 0]) ready)).map (·.cpResp) = some [⟨.ok, 0, []⟩] := by decide
/-- R77's example. -/
theorem test_reflect : (got (exec (.crcReflect 0x12) unbooted)).map (·.cpResp) = some [⟨.ok, 0x48, []⟩] := by decide
/-- R86's example. -/
theorem test_create :
    (got (exec (.qCreate 2) full)).map (fun t => (t.qcap, t.qrd, t.qwr, t.qfull)) = some (2, 0, 0, false) := by decide
/-- X-18, with QSLOTS = 4. -/
theorem test_create_too_large : (got (exec (.qCreate 5) ready)).map (·.fault) = some 0x07 := by decide
/-- R92's corner case: equal indices with QFULL = 1 are full, not empty. -/
theorem test_isempty : (got (exec .qIsempty full)).map (·.cpResp) = some [⟨.ok, 0, []⟩] := by decide
theorem test_isfull : (got (exec .qIsfull full)).map (·.cpResp) = some [⟨.ok, 1, []⟩] := by decide
/-- R94's corner case: QCAP = 3, QRD = 2, QWR = 1 gives 2. -/
theorem test_used : (got (exec .qUsed ready)).map (·.cpResp) = some [⟨.ok, 2, []⟩] := by decide
theorem test_free : (got (exec .qFree ready)).map (·.cpResp) = some [⟨.ok, 1, []⟩] := by decide
theorem test_capacity : (got (exec .qCapacity ready)).map (·.cpResp) = some [⟨.ok, 3, []⟩] := by decide
/-- R89: the oldest Message, with the read index wrapping to 0. -/
theorem test_pop :
    (got (exec .qPop ready)).map (fun t => (t.qrd, t.qwr, t.qfull, t.cpResp)) =
      some (0, 1, false, [⟨.ok, 0, [0x02, 0x02, 0x48, 0x69]⟩]) := by decide
theorem test_pop_empty :
    (got (exec .qPop empty)).map (fun t => (t.qrd, t.cpResp)) = some (2, [⟨.empty, 0, []⟩]) := by decide
/-- R97's example. -/
theorem test_clear :
    (got (exec .qClear { ready with qrd := 1, qwr := 0 })).map (fun t => (t.qrd, t.qwr, t.used)) = some (0, 0, 0) := by decide
/-- B-6. -/
theorem test_setpre : (got (exec (.pSetpre 0xDDCCBBAA) ready)).map (·.pre) = some #v[0xAA, 0xBB, 0xCC, 0xDD] := by decide
/-- R117's example. -/
theorem test_build :
    (got (exec (.pBuild 0x01 0x02 [0x48, 0x69]) ready)).map (·.cpResp) =
      some [⟨.ok, 13, [0xAA, 0xBB, 0xCC, 0xDD, 0x01, 0x02, 0x02, 0x48, 0x69, 0xB9, 0xDE, 0x01, 0x5E]⟩] := by decide +kernel
/-- B-3: ten bytes at MAX_PAYLOAD = 8 are cut to eight. -/
theorem test_build_truncates :
    (got (exec (.pBuild 0x03 0x04 [0, 1, 2, 3, 4, 5, 6, 7, 8, 9]) ready)).map
      (fun t => t.cpResp.map fun r => (r.res, (r.data.drop 4).take 11)) =
      some [(19, [0x03, 0x04, 0x08, 0, 1, 2, 3, 4, 5, 6, 7])] := by decide +kernel
/-- R118's example. -/
theorem test_send :
    (got (exec (.pSend 0x10 0x20 []) ready)).map (·.tx) =
      some [0xAA, 0xBB, 0xCC, 0xDD, 0x10, 0x20, 0x00, 0xC0, 0x5E, 0xE3, 0x76] := by decide +kernel

/-! ### States that meet the invariant -/

theorem ready_inv : ready.Inv := by
  refine ⟨by decide, by decide, fun _ => rfl, rfl, rfl, by simp [parserInRange, ready], .inr (by decide), by decide, ?_, by decide,
    by simp [ready]⟩
  intro _ k _ m hm
  have h : ∀ m ∈ ready.slots, m.size.toNat ≤ 8 := by decide
  exact h m (List.mem_of_getElem? hm)

theorem full_inv : full.Inv := by
  refine ⟨by decide, by decide, fun _ => rfl, rfl, rfl, by simp [parserInRange, full, ready], .inr (by decide), by decide, ?_,
    by decide, by simp [full, ready]⟩
  intro _ k _ m hm
  have h : ∀ m ∈ full.slots, m.size.toNat ≤ 8 := by decide
  exact h m (List.mem_of_getElem? hm)

theorem paying_inv : paying.Inv := by
  refine ⟨by decide, by decide, fun _ => rfl, rfl, rfl, by simp [parserInRange, paying, ready], .inr (by decide), by decide,
    ?_, by decide, by simp [paying, ready]⟩
  intro _ k _ m hm
  have h : ∀ m ∈ paying.slots, m.size.toNat ≤ 8 := by decide
  exact h m (List.mem_of_getElem? hm)

/-! ### Witnesses: encoding and admission -/

theorem witness_DecodeOfEncode :
    WellFormed (.qPush 0xFF (List.replicate 255 0xFF)) ∧ WellFormed (.pSend 0 0 []) ∧ WellFormed (.crcConcat 0 []) ∧
      ∃ d : List Byte, d.length = 65535 ∧ WellFormed (.crcConcat 0 d) := by
  refine ⟨by simp only [WellFormed, Instr.wellFormed, fitsC, List.length_replicate]; decide, rfl, rfl,
    List.replicate 65535 0, List.length_replicate, ?_⟩
  have h : ∀ d : List Byte, d.length = 65535 → WellFormed (.crcConcat 0 d) := by
    intro d hd; simp [WellFormed, Instr.wellFormed, hd]
  exact h _ List.length_replicate

theorem witness_EncodeOfDecode : decode [0x31, 1, 2, 1, 0x48, 0x69] = .ok (.pBuild 1 2 [0x48], [0x69]) := by decide

/-- Both ports hold a command, and the host's turn is the consumer's. -/
def both : State := { ready with ppIn := [0x01, 0xAA, 0, 0], cpIn := [0x26, 0, 0, 0], turns := [.cp] }

theorem witness_StepRunsDecodedCommand :
    (Serves both .cp { both with turns := [] } ∧ both.poppend = false ∧ decode (both.portIn .cp) = .ok (.qPop, []) ∧
      Instr.qPop.port = .cp) ∧
    (Serves { both with turns := [.pp] } .pp { both with turns := [] } ∧
      decode (both.portIn .pp) = .ok (.feed 0xAA, []) ∧ (Instr.feed 0xAA).port = .pp) :=
  ⟨⟨⟨rfl, rfl, rfl⟩, rfl, by decide, rfl⟩, ⟨⟨rfl, rfl, rfl⟩, by decide, rfl⟩⟩

theorem witness_EitherReadyPortMayMove :
    (portReady { both with cpIn := [] } .pp = true ∧ portReady { both with cpIn := [] } Port.pp.other = false) ∧
    (portReady { both with ppIn := [] } .cp = true ∧ portReady { both with ppIn := [] } Port.cp.other = false) ∧
    (portReady both .pp = true ∧ portReady both .cp = true ∧ both.turns = [.cp]) ∧
    (portReady { both with turns := [] } .pp = true ∧ portReady { both with turns := [] } .cp = true) ∧
    (portReady ready .pp = false ∧ portReady ready .cp = false) ∧
    (portReady { ready with popHeld := some ⟨1, 0, []⟩ } .cp = true) := by decide

theorem witness_IllegalOpcodeFaults :
    (∀ op ∈ [(0x00 : Byte), 0x03, 0x0F, 0x16, 0x1F, 0x28, 0x2F, 0x33, 0xFF], illegalOp op) ∧
    (∀ op ∈ [(0x01 : Byte), 0x02, 0x10, 0x15, 0x20, 0x27, 0x30, 0x32], ¬ illegalOp op) ∧
    Serves (deliverTo ready .pp [0x03, 0, 0, 0]) .pp (deliverTo ready .pp [0x03, 0, 0, 0]) ∧
    Serves (deliverTo ready .cp [0x27, 1, 0, 0]) .cp (deliverTo ready .cp [0x27, 1, 0, 0]) ∧
    (deliverTo ready .cp [0x27, 1, 0, 0]).poppend = false :=
  ⟨by decide, by decide, ⟨rfl, rfl, rfl⟩, ⟨rfl, rfl, rfl⟩, rfl⟩

theorem witness_WrongPortFaults :
    legalOn Port.cp.other 0x02 ∧ legalOn Port.pp.other 0x32 ∧ legalOn .pp 0x01 ∧ legalOn .cp 0x10 ∧
    Serves (deliverTo ready .cp [0x02, 0, 0, 0]) .cp (deliverTo ready .cp [0x02, 0, 0, 0]) ∧
    Serves (deliverTo ready .pp [0x32, 0, 0, 0]) .pp (deliverTo ready .pp [0x32, 0, 0, 0]) ∧
    Serves (deliverTo ready .pp [0x01, 0, 0, 0]) .pp (deliverTo ready .pp [0x01, 0, 0, 0]) :=
  ⟨(by decide : legalOn .pp 0x02), (by decide : legalOn .cp 0x32), by decide, by decide, ⟨rfl, rfl, rfl⟩, ⟨rfl, rfl, rfl⟩,
    ⟨rfl, rfl, rfl⟩⟩

theorem witness_ReservedFieldsFault :
    reservedSet 0x10 0 0 1 ∧ reservedSet 0x27 0 1 0 ∧ reservedSet 0x15 0 0 1 ∧ reservedSet 0x14 1 0 0 ∧ reservedSet 0x02 0 1 0 ∧
    ¬ reservedSet 0x02 1 0 1 ∧ ¬ reservedSet 0x31 1 1 1 ∧ legalOn .cp 0x31 ∧ legalOn .pp 0x02 ∧
    Serves (deliverTo ready .cp [0x10, 0, 0, 1]) .cp (deliverTo ready .cp [0x10, 0, 0, 1]) ∧
    Serves (deliverTo ready .pp [0x02, 1, 0, 1, 9]) .pp (deliverTo ready .pp [0x02, 1, 0, 1, 9]) :=
  ⟨by decide, by decide, by decide, by decide, by decide, by decide, by decide, by decide, by decide, ⟨rfl, rfl, rfl⟩,
    ⟨rfl, rfl, rfl⟩⟩

theorem witness_IdleBlockKeepsState :
    ready.rst = false ∧ ready.fault = 0 ∧ ready.ppIn = [] ∧ ready.cpIn = [] ∧ ready.poppend = false := by decide

theorem witness_StepTakesOneCommand :
    (both.rst = false ∧ ∃ t, step both = .next t ∧ t.cpIn ≠ both.cpIn) ∧
    (ready.rst = false ∧ ∃ t, step ready = .next t ∧ t.cpIn = ready.cpIn) :=
  ⟨⟨rfl, _, rfl, by decide⟩, ⟨rfl, _, rfl, rfl⟩⟩

/-! ### Witnesses: faults and reset -/

theorem witness_FaultIsPreciseAndFinal :
    (unbooted.fault = 0 ∧ ∃ t, exec .qPop unbooted = .next t ∧ t.fault ≠ 0) ∧
    (∃ t, exec .qPop { ready with fault := 8 } = .next t) ∧
    (∃ t, step (deliverTo ready .cp [0, 0, 0, 0]) = .next t ∧ t.fault ≠ 0) ∧
    ({ ready with fault := 8 }.rst = false) :=
  ⟨⟨rfl, _, rfl, by decide⟩, ⟨_, rfl⟩, ⟨_, rfl, by decide⟩, rfl⟩

theorem witness_CommandRaisesItsFault :
    (faultOf (.qPush 0 (List.replicate 9 0)) unbooted = some .pushSizeTooLarge ∧
      faultOf (.qPush 0 (List.replicate 8 0)) unbooted = some .queueNotCreated ∧
      faultOf (.qCreate 0) ready = some .zeroCapacity ∧ faultOf (.qCreate 5) ready = some .capacityTooLarge ∧
      faultOf (.pSend 0 0 []) unbooted = some .crcNotInit ∧ faultOf (.qCreate 4) ready = none) ∧
    faultOf (.feed 0x5E) { checking with qcap := 0 } = some .queueNotCreated ∧
    faultOf (.feed 0x5F) { checking with qcap := 0 } = none := ⟨by decide, by decide +kernel, by decide +kernel⟩

theorem witness_FaultLatchesFirstCode :
    (∃ t, step both = .next t ∧ t.fault = both.fault) ∧
    (∃ t, step (deliverTo ready .cp [0, 0, 0, 0]) = .next t ∧ t.fault = 1) ∧
    (∃ t, step { ready with fault := 8, rst := true } = .next t ∧ t.fault = 0) :=
  ⟨⟨_, rfl, by decide⟩, ⟨_, rfl, by decide⟩, ⟨_, rfl, by decide⟩⟩

theorem witness_ResetSetsEveryElement : { splitting with fault := 5, popHeld := some ⟨1, 0, []⟩, rst := true }.rst = true := rfl

theorem witness_ResetDropsPendingBytes : { both with rst := true }.rst = true ∧ { both with rst := true }.ppIn ≠ [] := by decide

theorem witness_ResetMeetsInvariant :
    (⟨0, 1, false⟩ : Params).Legal ∧ (⟨255, 65535, true⟩ : Params).Legal := by decide

theorem witness_StepKeepsInvariant :
    (ready.Inv ∧ ∃ t, step ready = .next t) ∧ (full.Inv ∧ ∃ t, step full = .next t) := ⟨⟨ready_inv, _, rfl⟩, ⟨full_inv, _, rfl⟩⟩

/-! ### Witnesses: the CRC unit -/

theorem witness_CrcInitFillsTable : ∃ t, exec .crcInit unbooted = .next t := ⟨_, rfl⟩

theorem witness_CrcCommandsRespond : ready.crcv = true ∧ unbooted.crcv = false ∧ unbooted.fault = 0 := ⟨rfl, rfl, rfl⟩

theorem witness_SplittingNeverChangesChecksum :
    ready.crcv = true ∧ ∃ r, exec (.crcCompute [1, 2]) ready = .next { ready with cpResp := ready.cpResp ++ [r] } :=
  ⟨rfl, _, rfl⟩

theorem witness_OneChangedByteChangesChecksum : (0x48 : Byte) ≠ 0x49 := by decide

theorem witness_BuiltFramePassesVerify : ready.crcv = true ∧ ready.params.Legal := by decide

/-! ### Witnesses: the queue unit -/

theorem witness_CreateBindsAndEmpties :
    ((1 : Half) ≠ 0 ∧ (1 : Half).toNat ≤ ready.params.qslots ∧ (4 : Half).toNat ≤ ready.params.qslots) ∧
    ready.fault = 0 ∧ (5 : Half) ≠ 0 ∧ ready.params.qslots < (5 : Half).toNat := by decide

theorem witness_PushStoresOrDrops :
    ((List.replicate 8 (0 : Byte)).length ≤ ready.params.maxPayload ∧ ready.qcap ≠ 0 ∧ ready.qfull = false) ∧
    (([] : List Byte).length ≤ full.params.maxPayload ∧ full.qcap ≠ 0 ∧ full.qfull = true) ∧
    (ready.fault = 0 ∧ ready.params.maxPayload < (List.replicate 9 (0 : Byte)).length) ∧
    (unbooted.fault = 0 ∧ (List.replicate 8 (0 : Byte)).length ≤ unbooted.params.maxPayload ∧ unbooted.qcap = 0) := by decide

theorem witness_PopReturnsOldest :
    ready.params.popSplit = false ∧
    (ready.qcap ≠ 0 ∧ ¬ (ready.qfull = false ∧ ready.qrd = ready.qwr) ∧ (ready.slots[ready.qrd.toNat]?).isSome = true) ∧
    (¬ (full.qfull = false ∧ full.qrd = full.qwr) ∧ (full.slots[full.qrd.toNat]?).isSome = true) ∧
    (empty.qcap ≠ 0 ∧ empty.qfull = false ∧ empty.qrd = empty.qwr) ∧ (unbooted.fault = 0 ∧ unbooted.qcap = 0) := by decide

theorem witness_SplitPopTakesTwoSteps :
    (splitting.params.popSplit = true ∧ splitting.qcap ≠ 0 ∧ ¬ (splitting.qfull = false ∧ splitting.qrd = splitting.qwr) ∧
      (splitting.slots[splitting.qrd.toNat]?).isSome = true) ∧
    (let s := { splitting with qwr := 2 }; s.params.popSplit = true ∧ s.qcap ≠ 0 ∧ s.qfull = false ∧ s.qrd = s.qwr) ∧
    ({ unbooted with params := ⟨8, 4, true⟩ }.params.popSplit = true) ∧
    (let s := { splitting with popHeld := some ⟨1, 0, []⟩ }; s.popHeld = some ⟨1, 0, []⟩ ∧ Serves s .cp s) :=
  ⟨by decide, by decide, rfl, rfl, rfl, rfl, rfl⟩

theorem witness_QueriesReportTheQueue : ready.qcap ≠ 0 ∧ full.qcap ≠ 0 ∧ unbooted.qcap = 0 ∧ unbooted.fault = 0 := by decide

theorem witness_ClearDiscardsAll :
    ready.qcap ≠ 0 ∧ (empty.qcap ≠ 0 ∧ empty.qfull = false ∧ empty.qrd = empty.qwr) ∧ unbooted.fault = 0 ∧ unbooted.qcap = 0 := by
  decide

theorem witness_ClearEqualsPoppingAll :
    (ready.Inv ∧ ready.qcap ≠ 0 ∧ ready.params.popSplit = false) ∧ (full.Inv ∧ full.qcap ≠ 0 ∧ full.params.popSplit = false) :=
  ⟨⟨ready_inv, by decide, rfl⟩, ⟨full_inv, by decide, rfl⟩⟩

theorem witness_ConsumerCommandsNeedQueue :
    (unbooted.fault = 0 ∧ unbooted.qcap = 0) ∧ (∃ t, exec .qPop ready = .next t) ∧ (∃ t, exec .qUsed ready = .next t) ∧
      Instr.qUsed ≠ .qPop ∧ Instr.qUsed ≠ .qClear := ⟨⟨rfl, rfl⟩, ⟨_, rfl⟩, ⟨_, rfl⟩, by decide, by decide⟩

theorem witness_QueueCountsAreConsistent :
    (ready.Inv ∧ ready.qcap ≠ 0 ∧ ready.poppend = false) ∧ (full.Inv ∧ full.qcap ≠ 0 ∧ full.poppend = false ∧ full.qfull = true) :=
  ⟨⟨ready_inv, by decide, rfl⟩, ⟨full_inv, by decide, rfl, rfl⟩⟩

theorem witness_QueueIsFirstInFirstOut :
    (ready.Inv ∧ ready.qcap ≠ 0 ∧ ready.poppend = false ∧ (List.replicate 8 (0 : Byte)).length ≤ ready.params.maxPayload ∧
      ready.qfull = false) ∧
    (full.Inv ∧ full.qfull = true ∧ ([] : List Byte).length ≤ full.params.maxPayload) ∧
    (ready.params.popSplit = false ∧
      ready.queue = ⟨0x02, 2, 0x48 :: 0x69 :: List.replicate 6 0⟩ :: [⟨0x0A, 1, 0xA1 :: List.replicate 7 0⟩]) :=
  ⟨⟨ready_inv, by decide, rfl, by decide, rfl⟩, ⟨full_inv, rfl, by decide⟩, rfl, by decide⟩

theorem witness_ProducerNeverEmptiesQueue :
    ((Instr.qPush 1 []).port = .pp ∧ (∃ t, exec (.qPush 1 []) ready = .next t) ∧ ready.qcap ≠ 0 ∧ ready.isEmpty = false) ∧
    (full.qcap ≠ 0 ∧ full.isEmpty = false ∧ full.params.popSplit = false) :=
  ⟨⟨rfl, ⟨_, rfl⟩, by decide, by decide⟩, by decide, by decide, rfl⟩

theorem witness_PushDuringSplitPopIsDropped :
    let s := { full with params := ⟨8, 4, true⟩ }
    s.params.popSplit = true ∧ s.qcap ≠ 0 ∧ s.qfull = true ∧ (List.replicate 8 (0 : Byte)).length ≤ s.params.maxPayload := by
  decide

/-! ### Witnesses: the parser unit -/

theorem witness_FeedSearchesPreamble :
    (ready.off.toNat < 4 ∧ ready.stage = .pre) ∧ ({ ready with off := 3 }.off.toNat < 4) := by decide

theorem witness_FeedTakesAddress :
    ({ ready with stage := .addr }.off.toNat < 2 ∧ { ready with stage := .addr }.stage = .addr) ∧
    ({ ready with stage := .addr, off := 1 }.off.toNat < 2) := by decide

theorem witness_FeedClampsSize : { ready with stage := .size }.stage = .size := rfl

theorem witness_FeedTakesPayload :
    (paying.stage = .pay ∧ paying.off.toNat < paying.fb.size.toNat) ∧
    (let s := { paying with off := 7, fb := { paying.fb with size := 8 } }; s.off.toNat < s.fb.size.toNat) := by decide

theorem witness_FeedVerifiesChecksum :
    checking.stage = .chk ∧ checking.off.toNat = 3 ∧ { checking with off := 2 }.off.toNat < 3 ∧ checking.crcv = true ∧
    frameCrc checking.tbl checking.fb.addr[0] checking.fb.addr[1] checking.fb.size checking.fb.pay =
      fromLE32 [checking.fb.chk[0], checking.fb.chk[1], checking.fb.chk[2], 0x5E] ∧
    frameCrc checking.tbl checking.fb.addr[0] checking.fb.addr[1] checking.fb.size checking.fb.pay ≠
      fromLE32 [checking.fb.chk[0], checking.fb.chk[1], checking.fb.chk[2], 0x5F] ∧
    checking.qcap ≠ 0 ∧ checking.qfull = false ∧ checking.fb.size.toNat ≤ checking.params.maxPayload ∧
    checking.fb.pay.length = checking.params.maxPayload ∧ { checking with qfull := true }.qfull = true ∧
    checking.fault = 0 ∧ { checking with crcv := false }.crcv = false ∧ { checking with qcap := 0 }.qcap = 0 := by decide +kernel

theorem witness_BuildReturnsFrame :
    ready.params.Legal ∧ ready.crcv = true ∧ unbooted.params.Legal ∧ unbooted.crcv = false ∧ unbooted.fault = 0 := by decide

theorem witness_SendAppendsFrameToTx :
    ready.params.Legal ∧ ready.crcv = true ∧ unbooted.params.Legal ∧ unbooted.crcv = false ∧ unbooted.fault = 0 := by decide

theorem witness_BuiltFrameRoundTrip :
    ready.Inv ∧ ready.fault = 0 ∧ ready.crcv = true ∧ ready.qcap ≠ 0 ∧ ready.qfull = false ∧ ready.stage = .pre ∧
      ready.off = 0 ∧ 12 < (buildFrame ready 1 2 [0x48, 0x69]).length :=
  ⟨ready_inv, rfl, rfl, by decide, rfl, rfl, rfl, by decide +kernel⟩

theorem witness_DefaultPreambleResynchronises :
    ready.Inv ∧ ready.fault = 0 ∧ ready.crcv = true ∧ ready.qcap ≠ 0 ∧ ready.qfull = false ∧ ready.stage = .pre ∧
      ready.off = 0 ∧ ready.pre = #v[0xAA, 0xBB, 0xCC, 0xDD] :=
  ⟨ready_inv, rfl, rfl, by decide, rfl, rfl, rfl, rfl⟩

theorem witness_SearchFindsFirstPreamble :
    (ready.stage = .pre ∧ ready.off = 0 ∧ ready.pre[1] ≠ ready.pre[0] ∧ ready.pre[2] ≠ ready.pre[0] ∧
      (∀ k < 5, ¬ ready.pre.toList <:+ [0xAA, 0xAA, 0xBB, 0xCC, 0xDD].take k) ∧
      ready.pre.toList <:+ [0xAA, 0xAA, 0xBB, 0xCC, 0xDD] ∧ ¬ ready.pre.toList <:+ [0xAA, 0xBB]) ∧
    { ready with pre := #v[0x55, 0x55, 0xAA, 0xCC] }.pre = #v[0x55, 0x55, 0xAA, 0xCC] := by decide

theorem witness_CorruptedFrameIsNotDelivered :
    ready.Inv ∧ ready.crcv = true ∧ ready.stage = .pre ∧ ready.off = 0 ∧ 12 < (buildFrame ready 1 2 [0x48, 0x69]).length ∧
      (buildFrame ready 1 2 [0x48, 0x69])[7]? ≠ some 0x49 ∧ (buildFrame ready 1 2 [0x48, 0x69])[12]? ≠ some 0x5F :=
  ⟨ready_inv, rfl, rfl, rfl, by decide +kernel, by decide +kernel, by decide +kernel⟩

/-- In stage ADDR at offset 0. -/
def addressing : State := { ready with stage := .addr }

theorem addressing_inv : addressing.Inv := by
  refine ⟨by decide, by decide, fun _ => rfl, rfl, rfl, by simp [parserInRange, addressing, ready], .inr (by decide), by decide,
    ?_, by decide, by simp [addressing, ready]⟩
  intro _ k _ m hm
  have h : ∀ m ∈ addressing.slots, m.size.toNat ≤ 8 := by decide
  exact h m (List.mem_of_getElem? hm)

theorem witness_FrameEndsAfterAnnouncedLength :
    addressing.Inv ∧ addressing.crcv = true ∧ addressing.qcap ≠ 0 ∧ addressing.stage = .addr ∧ addressing.off = 0 ∧
    ([1, 2, 0, 9, 9, 9, 9] : List Byte)[2]? = some 0 ∧
    ([1, 2, 0, 9, 9, 9, 9] : List Byte).length = 2 + 1 + min (0 : Byte).toNat addressing.params.maxPayload + 4 ∧
    (1 :: 2 :: 0xFF :: List.replicate 12 9 : List Byte)[2]? = some 0xFF ∧
    (1 :: 2 :: 0xFF :: List.replicate 12 9 : List Byte).length =
      2 + 1 + min (0xFF : Byte).toNat addressing.params.maxPayload + 4 :=
  ⟨addressing_inv, rfl, by decide, rfl, rfl, by decide, by decide, by decide, by decide⟩

/-! ### Witnesses: rules about the whole machine -/

theorem witness_OnlyItsWritersChangeAnElement :
    (∃ t, exec .qClear ready = .next t ∧ t.qrd ≠ ready.qrd) ∧ ∃ t, exec (.pSetpre 0) ready = .next t ∧ t.pre ≠ ready.pre :=
  ⟨⟨_, rfl, by decide⟩, ⟨_, rfl, by decide⟩⟩

theorem witness_ReadingCommandsWriteNothing :
    (∃ t, exec .qUsed ready = .next t) ∧ ∃ t, exec (.pBuild 0 0 []) unbooted = .next t := ⟨⟨_, rfl⟩, ⟨_, rfl⟩⟩

theorem witness_FeedStaysInsideBuffer :
    paying.Inv ∧ ∃ t, exec (.feed 0x69) paying = .next t ∧ t.fb.pay[1]? ≠ paying.fb.pay[1]? :=
  ⟨paying_inv, _, rfl, by decide⟩

theorem witness_SlotsAccessedBelowCapacity :
    ready.Inv ∧ ready.qcap ≠ 0 ∧ (∃ t, exec (.qPush 5 (List.replicate 8 0)) ready = .next t ∧ t.slots[1]? ≠ ready.slots[1]?) ∧
      (store.take 3)[ready.qrd.toNat]? = ready.slots[ready.qrd.toNat]? ∧ ∃ t, exec .qPop ready = .next t :=
  ⟨ready_inv, by decide, ⟨_, rfl, by decide⟩, by decide, _, rfl⟩

theorem witness_OneResponseToTheIssuingPort :
    (unbooted.fault = 0 ∧ ∃ t, exec .qPop unbooted = .next t ∧ t.fault ≠ 0) ∧
    (splitting.params.popSplit = true ∧ splitting.isEmpty = false ∧ ∃ t, exec .qPop splitting = .next t) ∧
    (∃ t, exec (.feed 0) ready = .next t ∧ t.fault = 0) ∧
    ∃ t, exec .qPop empty = .next t ∧ t.fault = 0 ∧ t.cpResp = [⟨.empty, 0, []⟩] :=
  ⟨⟨rfl, _, rfl, by decide⟩, ⟨rfl, by decide, _, rfl⟩, ⟨_, rfl, by decide⟩, ⟨_, rfl, by decide, by decide⟩⟩

theorem witness_ReceptionNeverFaultsAfterBoot :
    ready.crcv = true ∧ ready.qcap ≠ 0 ∧ ∃ t, exec (.feed 0) ready = .next t := ⟨rfl, by decide, _, rfl⟩

end Sys2Proof.Machine.Tests
end

section
/-! The memory accesses of 20_memory.md R42 and R43: what FEED writes in FB.pay, and which slots a command writes and reads. -/

namespace Sys2Proof.Machine

/-- A list with one place replaced differs from the old list in that place at most. -/
theorem eq_of_getElem?_set_ne {α : Type} {l : List α} {n k : Nat} {a : α} (h : (l.set n a)[k]? ≠ l[k]?) : k = n := by
  by_contra hk
  exact h (List.getElem?_set_ne (Ne.symm hk))

/-! ### FB.pay -/

/-- A received byte is stored in FB.pay in stage PAY, at OFF, and in no other stage. -/
theorem feedByte_pay {s t : State} {b : Byte} (h : feedByte b s = .ok t) :
    t.fb.pay = if s.stage = .pay then s.fb.pay.set s.off.toNat b else s.fb.pay := by
  unfold feedByte at h
  split at h <;> rename_i hs <;> simp only [hs, reduceCtorEq, if_false, if_true]
  · cases h; rw [feedPre_eq]
  · cases h; rw [feedAddr_eq]
  · cases h; rfl
  · cases h; rw [feedPay_eq]
  · rw [feedChk_eq] at h
    split at h
    · obtain ⟨-, ⟨-, rfl⟩ | ⟨-, -, -, rfl⟩⟩ := verify_cases h <;> rfl
    · cases h; rfl

/-- FEED leaves FB.pay as it was, or it is in stage PAY and stores its byte at OFF. -/
theorem exec_feed_pay {s t : State} {b : Byte} (h : exec (.feed b) s = .next t) :
    t.fb.pay = s.fb.pay ∨ s.stage = .pay ∧ t.fb.pay = s.fb.pay.set s.off.toNat b := by
  obtain ⟨c, rfl⟩ | ⟨hi, -⟩ | ⟨u, st, r, d, hw, rfl, -⟩ := exec_cases h
  · left; simp
  · cases hi
  · cases hw with
    | nothing _ _ hn => exact absurd rfl (hn b)
    | feed _ _ _ hb =>
      rw [State.respond_fb, feedByte_pay hb]
      split
      · right; exact ⟨‹_›, rfl⟩
      · left; rfl

/-- Settles O55: the one write, at OFF in stage PAY, is inside the buffer by the invariant's range of OFF in that stage. -/
theorem feedStaysInsideBuffer : Obligations.FeedStaysInsideBuffer := by
  intro s t b hinv h
  obtain hkept | ⟨hstage, hset⟩ := exec_feed_pay h
  · exact ⟨by rw [hkept, hinv.payload], fun k hk => absurd (by rw [hkept]) hk⟩
  · have hrange : s.off.toNat < s.fb.size.toNat ∧ s.fb.size.toNat ≤ s.params.maxPayload := by
      simpa [parserInRange, hstage] using hinv.parser
    refine ⟨by rw [hset, List.length_set, hinv.payload], fun k hk => ?_⟩
    obtain rfl : k = s.off.toNat := eq_of_getElem?_set_ne (hset ▸ hk)
    exact ⟨hstage, rfl, hrange⟩

/-! ### SLOT -/

/-- What a command writes touches no slot, or there is a queue and it replaces the slot at QWR. -/
theorem Written.slots {i : Instr} {s u : State} (h : Written i s u) :
    u.slots = s.slots ∨ s.qcap ≠ 0#16 ∧ ∃ m, u.slots = s.slots.set s.qwr.toNat m := by
  cases h with
  | push src d _ _ hc _ => exact .inr ⟨hc, _, rfl⟩
  | feed b _ _ hb =>
    obtain h | ⟨hc, -, -, -, -, -, h⟩ := feedByte_cases hb
    · left; rw [h]
    · right; exact ⟨hc, _, by rw [h]⟩
  | _ => exact .inl rfl

/-- A command touches no slot, or there is a queue and it replaces the slot at QWR. -/
theorem exec_slots {i : Instr} {s t : State} (h : exec i s = .next t) :
    t.slots = s.slots ∨ s.qcap ≠ 0#16 ∧ ∃ m, t.slots = s.slots.set s.qwr.toNat m := by
  obtain ⟨c, rfl⟩ | ⟨-, -, -, -, rfl⟩ | ⟨u, st, r, d, hw, rfl, -⟩ := exec_cases h
  · left; simp
  · left; rfl
  · simpa using hw.slots

/-- With a queue, the invariant puts both indices below QCAP, and QCAP within SLOT. -/
theorem State.Inv.indices_of_ne {s : State} (h : s.Inv) (hc : s.qcap ≠ 0#16) :
    s.qcap.toNat ≤ s.params.qslots ∧ s.qrd.toNat < s.qcap.toNat ∧ s.qwr.toNat < s.qcap.toNat :=
  h.indices.resolve_left hc

/-- The state with other contents of SLOT. -/
def State.withSlots (s : State) (l : List Message) : State := { s with slots := l }

/-- Reading a slot depends on that slot alone. -/
theorem slotRead_withSlots {s : State} {l : List Message} {i : Half} (h : l[i.toNat]? = s.slots[i.toNat]?) :
    (s.withSlots l).slotRead i = s.slotRead i := by
  simp only [State.slotRead, State.withSlots, h]

/-- Fault entry does not look at the slots. -/
theorem takeFault_withSlots (s : State) (l : List Message) (c : FaultCode) :
    (s.withSlots l).takeFault c = (s.takeFault c).withSlots l := by
  by_cases h : s.fault = 0x00#8
  · rw [State.takeFault_of_zero s c h]; exact State.takeFault_of_zero _ c h
  · rw [State.takeFault_of_ne_zero s c h]; exact State.takeFault_of_ne_zero _ c h

theorem exec_qPop_of_no_queue {s : State} (hc : s.qcap = 0#16) :
    exec .qPop s = .next (s.takeFault .queueNotCreated) := by
  simp [exec, execQPop, hc]

theorem exec_qPop_of_empty {s : State} (hc : s.qcap ≠ 0#16) (he : s.isEmpty = true) :
    exec .qPop s = .next (s.respond .cp .empty 0#32 []) := by
  simp [exec, execQPop, hc, he]

theorem exec_qPop_of_split {s : State} (hc : s.qcap ≠ 0#16) (he : s.isEmpty = false) (hs : s.params.popSplit = true) :
    exec .qPop s = .next { popAdvance s with popHeld := some (s.slotRead s.qrd) } := by
  simp [exec, execQPop, hc, he, hs]

theorem exec_qPop_of_whole {s : State} (hc : s.qcap ≠ 0#16) (he : s.isEmpty = false) (hs : s.params.popSplit = false) :
    exec .qPop s =
      .next ({ popAdvance s with qfull := false }.respond .cp .ok 0#32 (s.slotRead s.qrd).view) := by
  simp [exec, execQPop, hc, he, hs]

/-- Q_POP does the same whatever stands in the slots other than the one at QRD, and keeps them all. -/
theorem exec_qPop_withSlots {s t : State} {l : List Message} (hl : l[s.qrd.toNat]? = s.slots[s.qrd.toNat]?)
    (h : exec .qPop s = .next t) : exec .qPop (s.withSlots l) = .next (t.withSlots l) := by
  have hread : (s.withSlots l).slotRead (s.withSlots l).qrd = s.slotRead s.qrd := slotRead_withSlots hl
  by_cases hc : s.qcap = 0#16
  · rw [exec_qPop_of_no_queue hc] at h
    cases h
    rw [exec_qPop_of_no_queue (s := s.withSlots l) hc, takeFault_withSlots]
  · cases he : s.isEmpty with
    | true =>
      rw [exec_qPop_of_empty hc he] at h
      cases h
      exact exec_qPop_of_empty hc he
    | false =>
      cases hs : s.params.popSplit with
      | true =>
        rw [exec_qPop_of_split hc he hs] at h
        cases h
        rw [exec_qPop_of_split (s := s.withSlots l) hc he hs, hread]
        rfl
      | false =>
        rw [exec_qPop_of_whole hc he hs] at h
        cases h
        rw [exec_qPop_of_whole (s := s.withSlots l) hc he hs, hread]
        rfl

/-- Settles O56: slots are written by the push primitive alone, which runs with a queue, and read through QRD by Q_POP. -/
theorem slotsAccessedBelowCapacity : Obligations.SlotsAccessedBelowCapacity := by
  intro s hinv
  refine ⟨fun i t h => ?_, fun hc => ?_, fun l t hl h => exec_qPop_withSlots hl h⟩
  · obtain hkept | ⟨hc, m, hset⟩ := exec_slots h
    · exact ⟨by rw [hkept, hinv.slots], fun k hk => absurd (by rw [hkept]) hk⟩
    · obtain ⟨hcap, -, hwr⟩ := hinv.indices_of_ne hc
      refine ⟨by rw [hset, List.length_set, hinv.slots], fun k hk => ?_⟩
      obtain rfl : k = s.qwr.toNat := eq_of_getElem?_set_ne (hset ▸ hk)
      exact ⟨rfl, hwr, hcap⟩
  · obtain ⟨hcap, hrd, -⟩ := hinv.indices_of_ne hc
    exact ⟨hrd, hcap⟩

end Sys2Proof.Machine
end

section
/-! The faults of admission (spec 30_encoding.md R50, R53 to R55, R57): what a header on a served port makes the next move. -/

namespace Sys2Proof.Machine

/-! ### What `decode` answers on a legal opcode -/

/-- The opcodes legal on a port are those with a row of that port in the map. -/
theorem legalOn_iff_row {q : Port} {op : Byte} : legalOn q op ↔ ∃ r, opRow op = some r ∧ r.port = q := by
  cases q
  · exact (legalOn_iff op).1
  · exact (legalOn_iff op).2

/-- Every opcode that R54 does not list is legal on some port. -/
theorem exists_legalOn_of_not_illegalOp {op : Byte} (h : ¬ illegalOp op) : ∃ q, legalOn q op := by
  rw [illegalOp_iff] at h
  obtain ⟨r, hr⟩ := Option.ne_none_iff_exists'.mp h
  exact ⟨r.port, legalOn_iff_row.mpr ⟨r, hr, rfl⟩⟩

theorem not_illegalOp_of_legalOn {q : Port} {op : Byte} (h : legalOn q op) : ¬ illegalOp op := by
  obtain ⟨r, hr, -⟩ := legalOn_iff_row.mp h
  simp [illegalOp_iff, hr]

/-- What follows a legal header that is not part of a command begins with the whole trailer it announces. -/
theorem exists_trailer_of_not_partial {op a b c : Byte} {rest : List Byte} {r : OpRow} (hr : opRow op = some r)
    (hw : decode (op :: a :: b :: c :: rest) ≠ .error .partialCommand) :
    ∃ trailer after, trailer.length = trailerLen r.format (fromLE32 [op, a, b, c]) ∧ rest = trailer ++ after := by
  have hlen : trailerLen r.format (fromLE32 [op, a, b, c]) ≤ rest.length := by
    by_contra hshort
    exact hw (by simp [decode, hr, Nat.not_le.mp hshort])
  exact ⟨_, _, List.length_take_of_le hlen, (List.take_append_drop _ rest).symm⟩

/-- When a reserved field of a legal opcode with its whole trailer is not zero, `decode` rejects the header for it and names the
opcode's port; when all are zero, it gives a command of that port. -/
theorem decode_of_legalOn {q : Port} {op a b c : Byte} {rest : List Byte} (hl : legalOn q op)
    (hw : decode (op :: a :: b :: c :: rest) ≠ .error .partialCommand) :
    (reservedSet op a b c ∧ decode (op :: a :: b :: c :: rest) = .error (.reservedNonzero q)) ∨
    (¬ reservedSet op a b c ∧ ∃ i after, decode (op :: a :: b :: c :: rest) = .ok (i, after) ∧ i.port = q) := by
  obtain ⟨r, hr, rfl⟩ := legalOn_iff_row.mp hl
  obtain ⟨trailer, after, hn, rfl⟩ := exists_trailer_of_not_partial hr hw
  have hwhole := decode_whole op a b c trailer after r hr hn
  rw [reservedSet_iff op a b c r hr]
  cases hz : reservedZero r (fromLE32 [op, a, b, c]) with
  | false => exact .inl ⟨rfl, by simp [hwhole, hz]⟩
  | true =>
    refine .inr ⟨by simp, ?_⟩
    cases ha : assemble (fromLE32 [op, a, b, c]) trailer with
    | none =>
      have hill : decode (op :: a :: b :: c :: (trailer ++ after)) = .error .illegalOpcode := by simp [hwhole, hz, ha]
      exact absurd ((decode_illegal ..).mp hill) (not_illegalOp_of_legalOn hl)
    | some i =>
      have hok : decode (op :: a :: b :: c :: (trailer ++ after)) = .ok (i, after) := by simp [hwhole, hz, ha]
      exact ⟨i, after, hok, (decode_port op a b c _ r.port hl).2 i after hok⟩

/-! ### The next move of a served port -/

/-- A step whose next move is a rejection takes its fault and changes nothing else. -/
theorem Serves.stepLatches {s t : State} {p : Port} {f : FaultCode} (hs : Serves s p t) (h : Machine.nextMove s = .reject t f) :
    StepLatches s f.code := by
  refine ⟨t.takeFault f, by simp only [step, h], ?_⟩
  rw [State.takeFault_of_zero t f hs.fault, hs.eq]

/-- The next move on an illegal opcode is its rejection. -/
theorem Serves.nextMove_of_illegalOp {s t : State} {p : Port} {op a b c : Byte} {rest : List Byte} (hs : Serves s p t)
    (hp : p = .cp → s.poppend = false) (hin : s.portIn p = op :: a :: b :: c :: rest) (hill : illegalOp op) :
    Machine.nextMove s = .reject t .illegalOpcode := by
  rw [hs.nextMove, admission_of_no_pop (hs.poppend ▸ hp), hs.portIn, hin, (decode_illegal op a b c rest).mpr hill]

/-- Everything the next move on a legal opcode can be: on the other port WRONG_PORT, whatever the reserved fields hold; on its own
port RESERVED_NONZERO when one of them is not zero, and else the command is admitted. -/
theorem Serves.nextMove_of_legalOn {s t : State} {p q : Port} {op a b c : Byte} {rest : List Byte} (hs : Serves s p t)
    (hp : p = .cp → s.poppend = false) (hin : s.portIn p = op :: a :: b :: c :: rest) (hl : legalOn q op) :
    (q ≠ p ∧ Machine.nextMove s = .reject t .wrongPort) ∨
    (q = p ∧ reservedSet op a b c ∧ Machine.nextMove s = .reject t .reservedNonzero) ∨
    (q = p ∧ ¬ reservedSet op a b c ∧ ∃ i u, Machine.nextMove s = .run i u) := by
  have hw := hs.decode hp
  rw [hin] at hw
  rw [hs.nextMove, admission_of_no_pop (hs.poppend ▸ hp), hs.portIn, hin]
  obtain ⟨hset, hd⟩ | ⟨hzero, i, after, hd, rfl⟩ := decode_of_legalOn hl hw <;> rw [hd]
  · by_cases hq : q = p
    · exact .inr (.inl ⟨hq, hset, by simp [hq]⟩)
    · exact .inl ⟨hq, by simp [hq]⟩
  · by_cases hq : i.port = p
    · exact .inr (.inr ⟨hq, hzero, i, _, if_pos hq⟩)
    · exact .inl ⟨hq, if_neg hq⟩

theorem port_other_ne (p : Port) : p.other ≠ p := by cases p <;> decide

/-! ### The statements -/

/-- Settles O6: an opcode outside R54's list is legal on some port, and no move on a legal opcode is that rejection. -/
theorem illegalOpcodeFaults : Obligations.IllegalOpcodeFaults := by
  intro s t p op a b c rest hs hp hin
  refine ⟨fun hill => hs.stepLatches (hs.nextMove_of_illegalOp hp hin hill), fun hleg u => ?_⟩
  obtain ⟨q, hl⟩ := exists_legalOn_of_not_illegalOp hleg
  obtain ⟨-, hm⟩ | ⟨-, -, hm⟩ | ⟨-, -, i, v, hm⟩ := hs.nextMove_of_legalOn hp hin hl <;> simp [hm]

/-- Settles O7: of the moves on a legal opcode, the rejection as WRONG_PORT is the one on the other port. -/
theorem wrongPortFaults : Obligations.WrongPortFaults := by
  intro s t p op a b c rest hs hp hin
  refine ⟨fun hl => ?_, fun hl u => ?_⟩
  · obtain ⟨-, hm⟩ | ⟨hq, -⟩ | ⟨hq, -⟩ := hs.nextMove_of_legalOn hp hin hl
    · exact hs.stepLatches hm
    · exact absurd hq (port_other_ne p)
    · exact absurd hq (port_other_ne p)
  · obtain ⟨hq, -⟩ | ⟨-, -, hm⟩ | ⟨-, -, i, v, hm⟩ := hs.nextMove_of_legalOn hp hin hl
    · exact absurd rfl hq
    · simp [hm]
    · simp [hm]

/-- Settles O8: of the moves on a legal opcode of its own port, the reserved fields alone choose between rejection and admission. -/
theorem reservedFieldsFault : Obligations.ReservedFieldsFault := by
  intro s t p op a b c rest hs hp hin hl
  obtain ⟨hq, -⟩ | ⟨-, hset, hm⟩ | ⟨-, hzero, i, v, hm⟩ := hs.nextMove_of_legalOn hp hin hl
  · exact absurd rfl hq
  · exact ⟨fun _ => hs.stepLatches hm, fun hzero => absurd hset hzero⟩
  · exact ⟨fun hset => absurd hset hzero, fun _ u f => by simp [hm]⟩

end Sys2Proof.Machine
end

section
/-! The CRC unit (spec 40_crc.md): its table, one byte and a whole range of a checksum, and the responses of its commands. -/

namespace Sys2Proof.Machine

/-! ### The two computations (R71, R72) -/

/-- A checksum from scratch continues the checksum 0 of the empty range. -/
theorem crcCompute_eq_crcConcat_zero (tbl : Vector Word 256) (d : List Byte) : crcCompute tbl d = crcConcat tbl 0#32 d := by
  simp [crcCompute, crcConcat]

theorem crcConcat_nil (tbl : Vector Word 256) (p : Word) : crcConcat tbl p [] = p :=
  xor_xor_cancel p _

/-- Continuing over two ranges in a row is continuing over their concatenation (R78): the final invert of the first is undone
by the seed of the second. -/
theorem crcConcat_crcConcat (tbl : Vector Word 256) (p : Word) (x y : List Byte) :
    crcConcat tbl (crcConcat tbl p x) y = crcConcat tbl p (x ++ y) := by
  simp only [crcConcat, xor_xor_cancel, crcRun_append]

/-- R78 for a checksum from scratch. -/
theorem crcConcat_crcCompute_take_drop (tbl : Vector Word 256) (d : List Byte) (k : Nat) :
    crcConcat tbl (crcCompute tbl (d.take k)) (d.drop k) = crcCompute tbl d := by
  rw [crcCompute_eq_crcConcat_zero, crcConcat_crcConcat, List.take_append_drop, ← crcCompute_eq_crcConcat_zero]

/-- The table index `[7:0]` of R71, as a mask and as a field. -/
theorem toNat_and_ff_mod (x : Word) : (x &&& 0xFF#32).toNat % 256 = (x.extractLsb' 0 8).toNat := by
  have hmask : x.toNat &&& 255 = x.toNat % 256 := Nat.and_two_pow_sub_one_eq_mod x.toNat 8
  simp [hmask]

theorem crcStep_eq_masked (tbl : Vector Word 256) (c : Word) (b : Byte) :
    crcStep tbl c b = tbl[((c ^^^ b.setWidth 32) &&& 0xFF#32).toNat % 256] ^^^ (c >>> 8) := by
  simp only [crcStep, toNat_and_ff_mod]

/-- One more byte is one more step on the register, which the final invert of the prior checksum gives back. -/
theorem crcConcat_append_byte (tbl : Vector Word 256) (p : Word) (d : List Byte) (b : Byte) :
    crcConcat tbl p (d ++ [b]) = crcStep tbl (crcConcat tbl p d ^^^ 0xFFFFFFFF#32) b ^^^ 0xFFFFFFFF#32 := by
  rw [← crcConcat_crcConcat]; rfl

/-- Settles O20: the masked table read of R71 is the model's step. -/
theorem crcTakesOneByteAtATime : Obligations.CrcTakesOneByteAtATime := by
  intro tbl p d b
  refine ⟨?_, crcConcat_nil tbl p, crcCompute_eq_crcConcat_zero tbl d, ?_⟩
  · rw [crcCompute_eq_crcConcat_zero, crcConcat_nil]
  · rw [crcConcat_append_byte, crcStep_eq_masked]

/-! ### The commands -/

/-- A command that needs TBL ends in its state once CRCV = 1. -/
theorem finish_requireCrc_of_true {s : State} (h : s.crcv = true) (t : State) :
    finish s (requireCrc s (.ok t)) = .next t := by
  rw [requireCrc_of_true h, finish_ok]

/-- While CRCV = 0 and no fault is pending, it raises CRC_NOT_INIT (R17) and changes nothing else. -/
theorem finish_requireCrc_of_false {s : State} (h : s.crcv = false) (hf : s.fault = 0x00#8) (r : Result) :
    finish s (requireCrc s r) = .next { s with fault := 0x04#8 } := by
  rw [requireCrc_of_false h, finish_error]
  exact congrArg _ (State.takeFault_of_zero s .crcNotInit hf)

theorem exec_crcInit (s : State) :
    exec .crcInit s = .next ({ s with tbl := crcTable, crcv := true }.respond .cp .ok 0#32 []) := rfl

/-- With TBL filled and CRCV = 1, CRC_INIT writes what stands there. -/
theorem exec_crcInit_of_filled {s : State} (ht : s.tbl = crcTable) (hc : s.crcv = true) :
    exec .crcInit s = .next (s.respond .cp .ok 0#32 []) := by
  rw [exec_crcInit, ← ht, ← hc]

theorem exec_crcCompute_of_crcv {s : State} (h : s.crcv = true) (d : List Byte) :
    exec (.crcCompute d) s = .next (s.respond .cp .ok (crcCompute s.tbl d) []) :=
  finish_requireCrc_of_true h _

theorem exec_crcConcat_of_crcv {s : State} (h : s.crcv = true) (w : Word) (d : List Byte) :
    exec (.crcConcat w d) s = .next (s.respond .cp .ok (crcConcat s.tbl w d) []) :=
  finish_requireCrc_of_true h _

theorem exec_crcSelfcheck_of_crcv {s : State} (h : s.crcv = true) (w : Word) (d : List Byte) :
    exec (.crcSelfcheck w d) s = .next (s.respond .cp .ok (boolWord (crcCompute s.tbl d == w)) []) :=
  finish_requireCrc_of_true h _

theorem exec_crcVerify_of_crcv {s : State} (h : s.crcv = true) (d : List Byte) :
    exec (.crcVerify d) s = .next (s.respond .cp .ok (boolWord (crcVerifies s.tbl d)) []) :=
  finish_requireCrc_of_true h _

theorem exec_crcReflect (b : Byte) (s : State) :
    exec (.crcReflect b) s = .next (s.respond .cp .ok ((reflect8 b).setWidth 32) []) := rfl

/-- What CRC_VERIFY reports (R76). -/
theorem crcVerifies_iff (tbl : Vector Word 256) (d : List Byte) :
    crcVerifies tbl d = true ↔
      4 ≤ d.length ∧ crcCompute tbl (d.take (d.length - 4)) = fromLE32 (d.drop (d.length - 4)) := by
  unfold crcVerifies
  split
  · simp; omega
  · rw [beq_iff_eq]; exact (and_iff_right (Nat.not_lt.mp ‹_›)).symm

/-- A Boolean result is 1 exactly when the condition it decides holds (R7). -/
theorem boolWord_eq_ite {b : Bool} {P : Prop} [Decidable P] (h : b = true ↔ P) : boolWord b = if P then 1#32 else 0#32 :=
  if_congr h rfl rfl

/-- Bit k of a reflected byte (R77). -/
theorem reflect8_getLsbD (b : Byte) {k : Nat} (hk : k < 8) : (reflect8 b).getLsbD k = b.getLsbD (7 - k) := by
  rw [reflect8, BitVec.getLsbD_reverse, BitVec.getMsbD_eq_getLsbD, decide_eq_true hk, Bool.true_and]

/-- Settles O24: CRC_CONCAT over the second part gives the response of CRC_COMPUTE over the whole. -/
theorem splittingNeverChangesChecksum : Obligations.SplittingNeverChangesChecksum := by
  refine ⟨fun tbl d k => (crcConcat_crcCompute_take_drop tbl d k).symm, crcConcat_crcConcat, fun s d k r hc hcompute => ?_⟩
  rw [exec_crcConcat_of_crcv hc, crcConcat_crcCompute_take_drop, ← exec_crcCompute_of_crcv hc, hcompute]

/-- Settles O18: after CRC_INIT the table is filled and CRCV is 1, so a second one only responds. -/
theorem crcInitFillsTable : Obligations.CrcInitFillsTable := by
  refine fun s => ⟨exec_crcInit s, crcTable_get, fun t h => ?_, rfl, rfl⟩
  rw [exec_crcInit] at h
  cases h
  exact exec_crcInit_of_filled (by simp) (by simp)

/-- Settles O19, by evaluating the 256 entries. -/
theorem tableIsThePrintedTable : Obligations.TableIsThePrintedTable := by
  unfold Obligations.TableIsThePrintedTable
  decide +kernel

/-- Settles O22, by running the engine. -/
theorem checkValueOf123456789 : Obligations.CheckValueOf123456789 := by
  unfold Obligations.CheckValueOf123456789
  decide +kernel

/-- Settles O23: the one guard decides between the response and the fault. -/
theorem crcCommandsRespond : Obligations.CrcCommandsRespond := by
  intro s w d
  refine ⟨fun hc => ⟨exec_crcCompute_of_crcv hc d, exec_crcConcat_of_crcv hc w d, ?_, ?_⟩, fun hc hf i hi => ?_, ?_,
    rfl, rfl, rfl, rfl⟩
  · rw [exec_crcSelfcheck_of_crcv hc, boolWord_eq_ite beq_iff_eq]
  · rw [exec_crcVerify_of_crcv hc, boolWord_eq_ite (crcVerifies_iff s.tbl d)]
  · simp only [List.mem_cons, List.not_mem_nil, or_false] at hi
    obtain rfl | rfl | rfl | rfl := hi <;> exact finish_requireCrc_of_false hc hf _
  · simp [Instr.port]

/-- Settles O26: the result is the reflected byte, and no guard stands before it. -/
theorem reflectReversesBits : Obligations.ReflectReversesBits := fun s b =>
  ⟨⟨reflect8 b, exec_crcReflect b s, fun _ hk => reflect8_getLsbD b hk⟩, BitVec.reverse_reverse_eq, rfl, rfl⟩

end Sys2Proof.Machine
end

section
/-! The queue unit (spec 41_queue.md): what its commands do with a queue and without one, what they leave unchanged, and the
second step of a split pop. -/

namespace Sys2Proof.Machine

/-! ### The queue's guard and its tests (R91, R92) -/

/-- The seven commands that R91 guards: the consumer port's queue commands but Q_CREATE. -/
def consumerQueueCommands : List Instr := [.qPop, .qIsempty, .qIsfull, .qUsed, .qFree, .qCapacity, .qClear]

/-- With a queue, the guard lets a command end in its state. -/
theorem finish_requireQueue_of_ne {s : State} (h : s.qcap ≠ 0#16) (t : State) :
    finish s (requireQueue s (.ok t)) = .next t := by
  rw [requireQueue_of_ne h, finish_ok]

/-- A command that raises a fault while none is pending latches its code and changes nothing else (R124). -/
theorem finish_error_of_zero {s : State} (hf : s.fault = 0x00#8) (c : FaultCode) :
    finish s (.error c) = .next { s with fault := c.code } := by
  rw [finish_error, State.takeFault_of_zero s c hf]

/-- Every one of the seven is guarded before anything else it does. -/
theorem exec_eq_finish_requireQueue {i : Instr} (hi : i ∈ consumerQueueCommands) (s : State) :
    ∃ r, exec i s = finish s (requireQueue s r) := by
  simp only [consumerQueueCommands, List.mem_cons, List.not_mem_nil, or_false] at hi
  obtain rfl | rfl | rfl | rfl | rfl | rfl | rfl := hi <;> exact ⟨_, rfl⟩

/-- Without a queue each of the seven raises QUEUE_NOT_CREATED (R91). -/
theorem exec_of_no_queue {i : Instr} (hi : i ∈ consumerQueueCommands) {s : State} (hf : s.fault = 0x00#8)
    (hc : s.qcap = 0#16) : exec i s = .next { s with fault := 0x05#8 } := by
  obtain ⟨r, hr⟩ := exec_eq_finish_requireQueue hi s
  rw [hr, requireQueue_of_eq hc]
  exact finish_error_of_zero hf .queueNotCreated

theorem isEmpty_iff {s : State} : s.isEmpty = true ↔ s.qfull = false ∧ s.qrd = s.qwr := by
  simp [State.isEmpty]

theorem isEmpty_eq_false_iff {s : State} : s.isEmpty = false ↔ ¬ (s.qfull = false ∧ s.qrd = s.qwr) := by
  rw [← isEmpty_iff, Bool.not_eq_true]

theorem slotRead_of_getElem? {s : State} {i : Half} {m : Message} (h : s.slots[i.toNat]? = some m) : s.slotRead i = m := by
  rw [State.slotRead, h, Option.getD_some]

/-! ### Q_CREATE (R86) -/

theorem exec_qCreate_of_range {s : State} {n : Half} (h0 : n ≠ 0#16) (hn : n.toNat ≤ s.params.qslots) :
    exec (.qCreate n) s =
      .next ({ s with qcap := n, qrd := 0#16, qwr := 0#16, qfull := false }.respond .cp .ok 0#32 []) := by
  simp only [exec, execQCreate, if_neg h0, if_neg (Nat.not_lt.mpr hn), finish_ok]

theorem exec_qCreate_of_zero {s : State} (hf : s.fault = 0x00#8) :
    exec (.qCreate 0#16) s = .next { s with fault := 0x06#8 } :=
  finish_error_of_zero hf .zeroCapacity

theorem exec_qCreate_of_too_large {s : State} {n : Half} (hf : s.fault = 0x00#8) (h0 : n ≠ 0#16)
    (hn : s.params.qslots < n.toNat) : exec (.qCreate n) s = .next { s with fault := 0x07#8 } := by
  simp only [exec, execQCreate, if_neg h0, if_pos hn]
  exact finish_error_of_zero hf .capacityTooLarge

/-! ### Q_PUSH (R87, R88) -/

/-- A size over MAX_PAYLOAD faults whatever the queue is. -/
theorem exec_qPush_of_oversize {s : State} {d : List Byte} (hf : s.fault = 0x00#8) (hd : s.params.maxPayload < d.length)
    (src : Byte) : exec (.qPush src d) s = .next { s with fault := 0x08#8 } := by
  simp only [exec, execQPush, if_pos hd]
  exact finish_error_of_zero hf .pushSizeTooLarge

/-- A size that fits leaves the outcome to the push primitive, on the Message the operands make. -/
theorem exec_qPush_of_fits {s : State} {d : List Byte} (hd : d.length ≤ s.params.maxPayload) (src : Byte) :
    exec (.qPush src d) s =
      finish s ((queuePush s (makeMessage s src (lenC d) d)).map fun t => t.respond .pp .ok 0#32 []) := by
  simp only [exec, execQPush, if_neg (Nat.not_lt.mpr hd)]

/-! ### Step 2 of a split pop (R90) -/

/-- The choice of a port keeps the Message held. -/
theorem Serves.popHeld {s t : State} {p : Port} (h : Serves s p t) : t.popHeld = s.popHeld := by rw [h.eq]

/-- While POPPEND = 1 a step on the consumer port is step 2 of the pop, whatever command waits there (R57, R90). -/
theorem Serves.step_of_poppend {s t : State} (h : Serves s .cp t) (hp : s.poppend = true) :
    step s = .next (popFinish t) := by
  have hmove : Machine.nextMove s = .finishPop t := by
    rw [h.nextMove, admission, if_pos ⟨rfl, h.poppend.trans hp⟩]
  rw [step, hmove]

theorem popFinish_of_held {s : State} {m : Message} (h : s.popHeld = some m) :
    popFinish s = { s with qfull := false, popHeld := none }.respond .cp .ok 0#32 m.view := by
  rw [popFinish, h]

/-! ### Who writes the indices and QFULL (R91) -/

/-- On the consumer port Q_CREATE alone writes QWR. -/
theorem Written.keeps_qwr {i : Instr} {s u : State} (h : Written i s u) (hp : i.port = .cp) (hcreate : ∀ n, i ≠ .qCreate n) :
    u.qwr = s.qwr := by
  cases h with
  | create n => exact absurd rfl (hcreate n)
  | push | feed => cases hp
  | _ => rfl

/-- On the consumer port Q_CREATE, Q_POP and Q_CLEAR alone write QRD and QFULL. -/
theorem Written.keeps_qrd_qfull {i : Instr} {s u : State} (h : Written i s u) (hp : i.port = .cp)
    (hcreate : ∀ n, i ≠ .qCreate n) (hpop : i ≠ .qPop) (hclear : i ≠ .qClear) : u.qrd = s.qrd ∧ u.qfull = s.qfull := by
  cases h with
  | create n => exact absurd rfl (hcreate n)
  | pop => exact absurd rfl hpop
  | clear => exact absurd rfl hclear
  | push | feed => cases hp
  | _ => exact ⟨rfl, rfl⟩

theorem exec_keeps_qwr {i : Instr} {s t : State} (h : exec i s = .next t) (hp : i.port = .cp)
    (hcreate : ∀ n, i ≠ .qCreate n) : t.qwr = s.qwr := by
  obtain ⟨c, rfl⟩ | ⟨-, -, -, -, rfl⟩ | ⟨u, st, r, d, hw, rfl, -⟩ := exec_cases h
  · simp
  · rfl
  · simpa using hw.keeps_qwr hp hcreate

theorem exec_keeps_qrd_qfull {i : Instr} {s t : State} (h : exec i s = .next t) (hp : i.port = .cp)
    (hcreate : ∀ n, i ≠ .qCreate n) (hpop : i ≠ .qPop) (hclear : i ≠ .qClear) : t.qrd = s.qrd ∧ t.qfull = s.qfull := by
  obtain ⟨c, rfl⟩ | ⟨hi, -⟩ | ⟨u, st, r, d, hw, rfl, -⟩ := exec_cases h
  · simp
  · exact absurd hi hpop
  · simpa using hw.keeps_qrd_qfull hp hcreate hpop hclear

/-- The seven are commands of the consumer port, and Q_CREATE is none of them. -/
theorem consumerQueueCommands_port {i : Instr} (hi : i ∈ consumerQueueCommands) :
    i.port = .cp ∧ ∀ n, i ≠ .qCreate n := by
  simp only [consumerQueueCommands, List.mem_cons, List.not_mem_nil, or_false] at hi
  obtain rfl | rfl | rfl | rfl | rfl | rfl | rfl := hi <;> exact ⟨rfl, by simp⟩

/-! ### The statements -/

/-- Settles O29: once the size fits, the three outcomes of the push primitive are the three of Q_PUSH. -/
theorem pushStoresOrDrops : Obligations.PushStoresOrDrops := by
  intro s src d
  refine ⟨fun hd hc hq => ?_, fun hd hc hq => ?_, fun hf hd => exec_qPush_of_oversize hf hd src, fun hf hd hc => ?_, rfl, rfl⟩
  · refine ⟨freeTail s.draws (s.params.maxPayload - d.length), freeTail_length _ _, ?_⟩
    rw [exec_qPush_of_fits hd, queuePush_of_room _ hc hq]
    rfl
  · rw [exec_qPush_of_fits hd, queuePush_of_full _ hc hq]
    rfl
  · rw [exec_qPush_of_fits hd, queuePush_of_no_queue _ hc]
    exact finish_error_of_zero hf .queueNotCreated

/-- Settles O31: step 1 is Q_POP's own arm for POP_SPLIT = 1; step 2 is the one move that admission leaves the consumer port. -/
theorem splitPopTakesTwoSteps : Obligations.SplitPopTakesTwoSteps := by
  refine ⟨fun s hs => ⟨fun m hc he hm => ?_, fun hc hq hr => ?_, fun hf hc => ?_⟩, fun s m hm => ?_⟩
  · rw [exec_qPop_of_split hc (isEmpty_eq_false_iff.mpr he) hs, slotRead_of_getElem? hm]
    rfl
  · exact exec_qPop_of_empty hc (isEmpty_iff.mpr ⟨hq, hr⟩)
  · exact exec_of_no_queue (by decide) hf hc
  · have hp : s.poppend = true := by simp [State.poppend, hm]
    refine ⟨portReady_eq_true_iff.mpr (.inl ⟨rfl, hp⟩), fun t ht => ?_⟩
    rw [ht.step_of_poppend hp, popFinish_of_held (ht.popHeld.trans hm)]
    rfl

/-- Settles O35: the guard stands first in all seven, and the frame is that of every consumer command but Q_CREATE. -/
theorem consumerCommandsNeedQueue : Obligations.ConsumerCommandsNeedQueue := by
  intro i hi s
  obtain ⟨hp, hcreate⟩ := consumerQueueCommands_port hi
  exact ⟨exec_of_no_queue hi, fun t h => ⟨exec_keeps_qwr h hp hcreate, exec_keeps_qrd_qfull h hp hcreate⟩⟩

/-- Settles O28: the ranges of the capacity are the branches of Q_CREATE. -/
theorem createBindsAndEmpties : Obligations.CreateBindsAndEmpties := fun _ _ =>
  ⟨exec_qCreate_of_range, fun hf h0 => h0 ▸ exec_qCreate_of_zero hf, exec_qCreate_of_too_large, rfl, rfl⟩

/-- Settles O30: with POP_SPLIT = 0 the Message at QRD is read and returned in the one step. -/
theorem popReturnsOldest : Obligations.PopReturnsOldest := by
  refine fun s hs => ⟨fun m hc he hm => ?_, fun hc hq hr => ?_, fun hf hc => ?_, rfl, rfl⟩
  · rw [exec_qPop_of_whole hc (isEmpty_eq_false_iff.mpr he) hs, slotRead_of_getElem? hm]
    rfl
  · exact exec_qPop_of_empty hc (isEmpty_iff.mpr ⟨hq, hr⟩)
  · exact exec_of_no_queue (by decide) hf hc

/-- Settles O32: each query's response is the value its rule computes, and its guard is R91's. -/
theorem queriesReportTheQueue : Obligations.QueriesReportTheQueue := by
  intro s used
  refine ⟨fun hc => ⟨?_, ?_, ?_, ?_, ?_⟩, fun hc hf i hi => exec_of_no_queue ?_ hf hc, by simp [Instr.port],
    rfl, rfl, rfl, rfl, rfl⟩
  · rw [← boolWord_eq_ite isEmpty_iff]; exact finish_requireQueue_of_ne hc _
  · exact finish_requireQueue_of_ne hc _
  · exact finish_requireQueue_of_ne hc _
  · exact finish_requireQueue_of_ne hc _
  · rw [BitVec.ofNat_toNat]; exact finish_requireQueue_of_ne hc _
  · have hsub : [Instr.qIsempty, .qIsfull, .qUsed, .qFree, .qCapacity] ⊆ consumerQueueCommands := by decide
    exact hsub hi

end Sys2Proof.Machine
end

section
/-! One received byte in each stage of the parser (spec 42_parser.md R106 to R113), and the commands that set the preamble and
build a frame (R115 to R117). -/

namespace Sys2Proof.Machine

/-! ### The stages before the checksum -/

/-- Inside its bounds, the checked write of the model is the plain one. -/
theorem setIfInBounds_eq_set {α : Type} {n : Nat} (v : Vector α n) {i : Nat} (h : i < n) (a : α) :
    v.setIfInBounds i a = v.set i a := by
  ext j hj
  simp [Vector.getElem_setIfInBounds, Vector.getElem_set]

/-- The advance of an offset below 255 does not wrap. -/
theorem add_one_eq_iff {o n : Byte} (h : o.toNat < 255) : o + 1#8 = n ↔ o.toNat + 1 = n.toNat := by
  bv_omega

theorem exec_feed_of_pre {s : State} (b : Byte) (hst : s.stage = .pre) :
    exec (.feed b) s = .next ((feedPre b s).respond .pp .ok 0#32 []) :=
  exec_feed_of_ok (by simp only [feedByte, hst])

theorem exec_feed_of_addr {s : State} (b : Byte) (hst : s.stage = .addr) :
    exec (.feed b) s = .next ((feedAddr b s).respond .pp .ok 0#32 []) :=
  exec_feed_of_ok (by simp only [feedByte, hst])

theorem exec_feed_of_size {s : State} (b : Byte) (hst : s.stage = .size) :
    exec (.feed b) s = .next ((feedSize b s).respond .pp .ok 0#32 []) :=
  exec_feed_of_ok (by simp only [feedByte, hst])

theorem exec_feed_of_pay {s : State} (b : Byte) (hst : s.stage = .pay) :
    exec (.feed b) s = .next ((feedPay b s).respond .pp .ok 0#32 []) :=
  exec_feed_of_ok (by simp only [feedByte, hst])

/-- The offset a byte leads to in stage PRE, before the test for 4, from the preamble and the offset alone (R106). -/
def nextOffset (pre : Vector Byte 4) (o b : Byte) : Byte :=
  if pre[o.toNat]? = some b then o + 1#8 else if b = pre[0] then 1#8 else 0#8

theorem preambleOffset_eq (s : State) (b : Byte) : preambleOffset s b = nextOffset s.pre s.off b := rfl

theorem nextOffset_of_lt (pre : Vector Byte 4) (o b : Byte) (h : o.toNat < 4) :
    nextOffset pre o b = if b = pre[o.toNat] then o + 1#8 else if b = pre[0] then 1#8 else 0#8 := by
  simp only [nextOffset, Vector.getElem?_eq_getElem h, Option.some.injEq, eq_comm]

/-- The clamped size byte fits a byte. -/
theorem toNat_clamped (s : State) (b : Byte) : (BitVec.ofNat 8 (clamp s b.toNat)).toNat = min b.toNat s.params.maxPayload := by
  have := b.isLt
  simp only [clamp, BitVec.toNat_ofNat]
  omega

/-! ### The checksum bytes -/

theorem exec_feed_of_chk {s : State} (b : Byte) (hst : s.stage = .chk) :
    exec (.feed b) s = finish s ((feedChk b s).map fun t => t.respond .pp .ok 0#32 []) := by
  simp only [exec, execFeed, feedByte, hst]

theorem exec_feed_of_chk_lt {s : State} (b : Byte) (hst : s.stage = .chk) (ho : s.off.toNat < 3) :
    exec (.feed b) s = .next ((withChk b s).respond .pp .ok 0#32 []) := by
  have hne : s.off + 1#8 ≠ 4#8 := by bv_omega
  rw [exec_feed_of_chk b hst, feedChk_eq, if_neg hne]
  rfl

/-- The fourth checksum byte leaves the outcome to Verify (R110). -/
theorem exec_feed_of_chk_last {s : State} (b : Byte) (hst : s.stage = .chk) (ho : s.off = 3#8) :
    exec (.feed b) s = finish s ((verify (withChk b s)).map fun t => t.respond .pp .ok 0#32 []) := by
  rw [exec_feed_of_chk b hst, feedChk_eq, if_pos (by rw [ho]; rfl)]

/-- Whether the checksum received is that of the frame, once the last byte is stored (R111). -/
theorem checksumMatches_withChk {s : State} (b : Byte) (ho : s.off = 3#8) :
    checksumMatches (withChk b s) = true ↔
      frameCrc s.tbl s.fb.addr[0] s.fb.addr[1] s.fb.size s.fb.pay =
        fromLE32 [s.fb.chk[0], s.fb.chk[1], s.fb.chk[2], b] := by
  rw [checksumMatches, beq_iff_eq, withChk_chk b ho]
  rfl

theorem verify_of_crcv_false {s : State} (hc : s.crcv = false) : verify s = .error .crcNotInit :=
  requireCrc_of_false hc

theorem verify_of_mismatch {s : State} (hc : s.crcv = true) (hm : checksumMatches s = false) :
    verify s = .ok (parserRestart s) := by
  rw [verify, requireCrc_of_true hc, hm]
  rfl

/-- A frame that matches is pushed (R112), and then the parser restarts. -/
theorem verify_of_match {s : State} (hc : s.crcv = true) (hm : checksumMatches s = true) :
    verify s = (queuePush s (frameMessage s)).map parserRestart := by
  rw [verify, requireCrc_of_true hc, hm, if_pos rfl, deliver_eq]

/-- Of a mismatch and of a frame dropped on a full queue nothing stays but FB (R111, R112). -/
theorem verify_of_discarded {s : State} (hc : s.crcv = true)
    (h : checksumMatches s = false ∨ s.qcap ≠ 0#16 ∧ s.qfull = true) : verify s = .ok (parserRestart s) := by
  cases hm : checksumMatches s with
  | false => exact verify_of_mismatch hc hm
  | true =>
    obtain ⟨hq, hf⟩ := h.resolve_left (by simp [hm])
    rw [verify_of_match hc hm, queuePush_of_full _ hq hf]
    rfl

/-! ### The statements -/

/-- Settles O40: inside the preamble the model's checked access is R106's comparison. -/
theorem feedSearchesPreamble : Obligations.FeedSearchesPreamble := by
  intro s b h hst o
  have ho : preambleOffset s b = o := nextOffset_of_lt s.pre s.off b h
  rw [exec_feed_of_pre b hst, feedPre_eq, ho, setIfInBounds_eq_set _ h, hst]

/-- Settles O41: OFF is 0 or 1, and 1 is the last. -/
theorem feedTakesAddress : Obligations.FeedTakesAddress := by
  intro s b h hst
  have hlast : s.off + 1#8 = 2#8 ↔ s.off.toNat = 1 := by bv_omega
  rw [exec_feed_of_addr b hst, feedAddr_eq, setIfInBounds_eq_set _ h, hst]
  simp only [hlast]

/-- Settles O42: the clamped value fits the byte it is stored in. -/
theorem feedClampsSize : Obligations.FeedClampsSize := fun s b hst =>
  ⟨BitVec.ofNat 8 (clamp s b.toNat), toNat_clamped s b, exec_feed_of_size b hst⟩

/-- Settles O43: below FB.size the advance of OFF does not wrap. -/
theorem feedTakesPayload : Obligations.FeedTakesPayload := by
  intro s b hst h
  have hlast : s.off + 1#8 = s.fb.size ↔ s.off.toNat + 1 = s.fb.size.toNat :=
    add_one_eq_iff (by have := s.fb.size.isLt; omega)
  rw [exec_feed_of_pay b hst, feedPay_eq, hst]
  simp only [hlast]

/-- Settles O44: the outcomes of the fourth byte are those of Verify on the state with the byte stored. -/
theorem feedVerifiesChecksum : Obligations.FeedVerifiesChecksum := by
  intro s b h hst taken n good w
  have htaken : taken = { s with fb := { s.fb with chk := s.fb.chk.setIfInBounds s.off.toNat b } } := by
    rw [setIfInBounds_eq_set _ h]
  have hoff (h3 : s.off.toNat = 3) : s.off = 3#8 := BitVec.eq_of_toNat_eq h3
  have hgood (h3 : s.off.toNat = 3) : checksumMatches (withChk b s) = true ↔ good := checksumMatches_withChk b (hoff h3)
  refine ⟨fun hlt => ?_, fun h3 hc hd => ?_, fun h3 hc hg hq hf hn hl => ?_, fun h3 hz hc => ?_, fun h3 hz hc hg hq => ?_⟩
  · rw [exec_feed_of_chk_lt b hst hlt, htaken]
    rfl
  · have hd : checksumMatches (withChk b s) = false ∨ s.qcap ≠ 0#16 ∧ s.qfull = true :=
      hd.imp_left fun hb => by rwa [← hgood h3, Bool.not_eq_true] at hb
    rw [exec_feed_of_chk_last b hst (hoff h3), verify_of_discarded (s := withChk b s) hc hd, htaken]
    rfl
  · refine ⟨freeTail s.draws (s.params.maxPayload - (s.fb.pay.take n).length), ?_, ?_⟩
    · rw [freeTail_length, List.length_take_of_le (by omega)]
    · rw [exec_feed_of_chk_last b hst (hoff h3), verify_of_match (s := withChk b s) hc ((hgood h3).mpr hg),
        queuePush_of_room (s := withChk b s) _ hq hf, htaken]
      rfl
  · rw [exec_feed_of_chk_last b hst (hoff h3), verify_of_crcv_false (s := withChk b s) hc]
    exact finish_error_of_zero hz .crcNotInit
  · rw [exec_feed_of_chk_last b hst (hoff h3), verify_of_match (s := withChk b s) hc ((hgood h3).mpr hg),
      queuePush_of_no_queue (s := withChk b s) _ hq]
    exact finish_error_of_zero hz .queueNotCreated

/-- Settles O45: the operand's four bytes are the preamble, and no guard stands before the write. -/
theorem setPreambleWritesPreOnly : Obligations.SetPreambleWritesPreOnly := fun _ _ => ⟨rfl, rfl, rfl⟩

theorem buildFrame_length {s : State} (hp : s.params.Legal) (dst src : Byte) (d : List Byte) :
    (buildFrame s dst src d).length = 11 + min d.length s.params.maxPayload := by
  rw [buildFrame_eq s hp]
  simp [le32]
  omega

/-- Settles O46: the response is the built frame and its length, behind the guard of CRCV. -/
theorem buildReturnsFrame : Obligations.BuildReturnsFrame := by
  intro s dst src d hp n body
  refine ⟨fun hc => ?_, fun hc hf => finish_requireCrc_of_false hc hf _, rfl, rfl⟩
  have hframe : buildFrame s dst src d = s.pre.toList ++ body ++ le32 (crcCompute s.tbl body) := buildFrame_eq s hp dst src d
  rw [← hframe, ← buildFrame_length hp dst src d]
  exact finish_requireCrc_of_true hc _

end Sys2Proof.Machine
end

section
/-! The search for the preamble (spec 42_parser.md R106, R120, R121): the bytes of stage PRE as one automaton on the offset, and
the longest first part of the preamble that stands at the end of what was received. -/

namespace Sys2Proof.Machine

/-! ### The automaton -/

/-- What holds of every proper first part of `bs ++ [b]` holds of those of `bs`, and of `bs`. -/
theorem forall_take_of_append_byte {P : List Byte → Prop} {bs : List Byte} {b : Byte}
    (h : ∀ k < (bs ++ [b]).length, P ((bs ++ [b]).take k)) : (∀ k < bs.length, P (bs.take k)) ∧ P bs := by
  have hfirst (k : Nat) (hk : k ≤ bs.length) : P (bs.take k) := by
    rw [← List.take_append_of_le_length (l₂ := [b]) hk]
    exact h k (by simp; omega)
  exact ⟨fun k hk => hfirst k hk.le, by simpa using hfirst bs.length le_rfl⟩

/-- The offset after a byte sequence from offset 0; 4 is the way to stage ADDR. -/
def matched (pre : Vector Byte 4) (bs : List Byte) : Byte := bs.foldl (nextOffset pre) 0#8

theorem matched_append_byte (pre : Vector Byte 4) (bs : List Byte) (b : Byte) :
    matched pre (bs ++ [b]) = nextOffset pre (matched pre bs) b := by
  simp [matched]

/-- Reception of `bs` delivers nothing and ends at offset `o` of the preamble, or, with `o` = 4, in stage ADDR. -/
def SearchReaches (s : State) (bs : List Byte) (o : Byte) : Prop :=
  ∃ t, QuietRun bs s t ∧ t.stage = (if o = 4#8 then .addr else .pre) ∧ t.off = if o = 4#8 then 0#8 else o

/-- What is received quietly leaves PRE alone. -/
theorem Quiet.pre {s t : State} (h : Quiet s t) : t.pre = s.pre := by
  unfold Quiet at h; rw [h]

theorem SearchReaches.nil {s : State} (hst : s.stage = .pre) (hoff : s.off = 0#8) : SearchReaches s [] 0#8 :=
  ⟨s, .nil s, hst, hoff⟩

/-- One more byte of the search is one step of the automaton. -/
theorem SearchReaches.append_byte {s : State} {bs : List Byte} {o : Byte} (h : SearchReaches s bs o) (ho : o ≠ 4#8)
    (b : Byte) : SearchReaches s (bs ++ [b]) (nextOffset s.pre o b) := by
  obtain ⟨t, hrun, hst, hoff⟩ := h
  rw [if_neg ho] at hst hoff
  have hbyte : QuietRun [b] t ((feedPre b t).respond .pp .ok 0#32 []) :=
    .one (by simp only [feedByte, hst]) (by rw [feedPre_eq]; rfl)
  have hnext : preambleOffset t b = nextOffset s.pre o b := by rw [preambleOffset_eq, hrun.2.1.pre, hoff]
  exact ⟨_, hrun.append hbyte, by simp [feedPre_eq, hnext, hst], by simp [feedPre_eq, hnext]⟩

/-- While the preamble is not found, the search is the automaton. -/
theorem searchReaches_matched {s : State} (hst : s.stage = .pre) (hoff : s.off = 0#8) (bs : List Byte)
    (h : ∀ k < bs.length, matched s.pre (bs.take k) ≠ 4#8) : SearchReaches s bs (matched s.pre bs) := by
  induction bs using List.reverseRecOn with
  | nil => exact .nil hst hoff
  | append_singleton bs b ih =>
    obtain ⟨hfirst, hlast⟩ := forall_take_of_append_byte (P := fun l => matched s.pre l ≠ 4#8) h
    rw [matched_append_byte]
    exact (ih hfirst).append_byte hlast b

/-! ### The longest match -/

/-- Of the first parts of the preamble at the end of `bs`, the longest has `o` bytes. -/
structure LongestMatch (pre : Vector Byte 4) (bs : List Byte) (o : Nat) : Prop where
  le : o ≤ 4
  suffix : pre.toList.take o <:+ bs
  max : ∀ j ≤ 4, pre.toList.take j <:+ bs → j ≤ o

/-- The longest match is the whole preamble exactly when the bytes end with it. -/
theorem LongestMatch.eq_four_iff {pre : Vector Byte 4} {bs : List Byte} {o : Nat} (h : LongestMatch pre bs o) :
    o = 4 ↔ pre.toList <:+ bs := by
  have hall : pre.toList.take 4 = pre.toList := List.take_of_length_le (by simp)
  constructor
  · rintro rfl
    exact hall ▸ h.suffix
  · exact fun hs => le_antisymm h.le (h.max 4 le_rfl (hall.symm ▸ hs))

/-- A first part of the preamble ends the bytes exactly when it is shorter by one before the last byte, which it ends with. -/
theorem take_succ_suffix_append_byte {pre : Vector Byte 4} {bs : List Byte} {b : Byte} {j : Nat} (hj : j < 4) :
    pre.toList.take (j + 1) <:+ bs ++ [b] ↔ pre.toList.take j <:+ bs ∧ b = pre[j] := by
  have htake : pre.toList.take (j + 1) = pre.toList.take j ++ [pre[j]] := by simp [List.take_add_one, hj]
  rw [htake, List.suffix_concat_iff]
  constructor
  · rintro (h | ⟨t, ht, hs⟩)
    · simp at h
    · obtain ⟨rfl, hb⟩ := List.append_inj' ht rfl
      exact ⟨hs, (List.singleton_inj.mp hb).symm⟩
  · rintro ⟨hs, rfl⟩
    exact .inr ⟨_, rfl, hs⟩

/-- With PRE[1] and PRE[2] different from PRE[0], no first part of PRE of one to three bytes ends with a shorter one. -/
theorem eq_zero_of_take_suffix_take {pre : Vector Byte 4} (h1 : pre[1] ≠ pre[0]) (h2 : pre[2] ≠ pre[0]) {i o : Nat}
    (hio : i < o) (ho : o < 4) (h : pre.toList.take i <:+ pre.toList.take o) : i = 0 := by
  obtain ⟨⟨l⟩, hl⟩ := pre
  match l, hl with
  | [p0, p1, p2, p3], _ =>
    simp only [Vector.getElem_mk, List.getElem_toArray, List.getElem_cons_zero, List.getElem_cons_succ] at h1 h2
    have hcases : i = 0 ∨ i = 1 ∧ o = 2 ∨ i = 1 ∧ o = 3 ∨ i = 2 ∧ o = 3 := by omega
    obtain rfl | ⟨rfl, rfl⟩ | ⟨rfl, rfl⟩ | ⟨rfl, rfl⟩ := hcases
    · rfl
    · exact absurd (by simpa [List.suffix_cons_iff] using h : p0 = p1).symm h1
    · exact absurd (by simpa [List.suffix_cons_iff] using h : p0 = p2).symm h2
    · exact absurd (by simpa [List.suffix_cons_iff] using h : p0 = p1 ∧ p1 = p2).1.symm h1

/-- Under R121's condition the automaton keeps the longest match: after a mismatch no part longer than PRE[0] can remain. -/
theorem LongestMatch.append_byte {pre : Vector Byte 4} (h1 : pre[1] ≠ pre[0]) (h2 : pre[2] ≠ pre[0]) {bs : List Byte}
    {o : Byte} (h : LongestMatch pre bs o.toNat) (ho : o.toNat < 4) (b : Byte) :
    LongestMatch pre (bs ++ [b]) (nextOffset pre o b).toNat := by
  rw [nextOffset_of_lt pre o b ho]
  by_cases hb : b = pre[o.toNat]
  · rw [if_pos hb, (by bv_omega : (o + 1#8).toNat = o.toNat + 1)]
    refine ⟨ho, (take_succ_suffix_append_byte ho).mpr ⟨h.suffix, hb⟩, fun j hj hs => ?_⟩
    cases j with
    | zero => exact Nat.zero_le _
    | succ i => exact Nat.succ_le_succ (h.max i (by omega) ((take_succ_suffix_append_byte hj).mp hs).1)
  · rw [if_neg hb]
    have hshort (i : Nat) (hi : i < 4) (hs : pre.toList.take (i + 1) <:+ bs ++ [b]) : i = 0 ∧ b = pre[0] := by
      obtain ⟨hsi, hbi⟩ := (take_succ_suffix_append_byte hi).mp hs
      have hle : i ≤ o.toNat := h.max i hi.le hsi
      have hne : i ≠ o.toNat := by rintro rfl; exact hb hbi
      obtain rfl : i = 0 := eq_zero_of_take_suffix_take h1 h2 (by omega) ho
        (List.suffix_of_suffix_length_le hsi h.suffix (by simp; omega))
      exact ⟨rfl, hbi⟩
    by_cases h0 : b = pre[0]
    · rw [if_pos h0]
      refine ⟨by decide, (take_succ_suffix_append_byte (by omega)).mpr ⟨by simp, h0⟩, fun j hj hs => ?_⟩
      cases j with
      | zero => exact Nat.zero_le _
      | succ i => simp [(hshort i hj hs).1]
    · rw [if_neg h0]
      refine ⟨by decide, by simp, fun j hj hs => ?_⟩
      cases j with
      | zero => exact le_rfl
      | succ i => exact absurd (hshort i hj hs).2 h0

/-- Under R121's condition, up to the first occurrence of the preamble the automaton holds the longest match. -/
theorem longestMatch_matched {pre : Vector Byte 4} (h1 : pre[1] ≠ pre[0]) (h2 : pre[2] ≠ pre[0]) (bs : List Byte)
    (h : ∀ k < bs.length, ¬ pre.toList <:+ bs.take k) : LongestMatch pre bs (matched pre bs).toNat := by
  induction bs using List.reverseRecOn with
  | nil => exact ⟨Nat.zero_le _, by simp [matched], fun j hj hs => by simpa [matched] using hs⟩
  | append_singleton bs b ih =>
    obtain ⟨hfirst, hlast⟩ := forall_take_of_append_byte (P := fun l => ¬ pre.toList <:+ l) h
    have hbs : LongestMatch pre bs (matched pre bs).toNat := ih hfirst
    rw [matched_append_byte]
    exact hbs.append_byte h1 h2 (lt_of_le_of_ne hbs.le (mt hbs.eq_four_iff.mp hlast)) b

/-- Under R121's condition, up to its first occurrence the automaton says whether the preamble was found. -/
theorem matched_eq_four_iff {pre : Vector Byte 4} (h1 : pre[1] ≠ pre[0]) (h2 : pre[2] ≠ pre[0]) {bs : List Byte}
    (h : ∀ k < bs.length, ¬ pre.toList <:+ bs.take k) : matched pre bs = 4#8 ↔ pre.toList <:+ bs := by
  rw [← (longestMatch_matched h1 h2 bs h).eq_four_iff, ← BitVec.toNat_inj]
  rfl

/-! ### The statement -/

/-- Settles O50: with R121's condition the automaton finds the first occurrence; `55 55 AA CC` lets it fall back to offset 1 where 2
bytes still match. -/
theorem searchFindsFirstPreamble : Obligations.SearchFindsFirstPreamble := by
  refine ⟨fun s bs hst hoff h1 h2 hfirst => ?_, fun s hst hoff hpre => ?_⟩
  · have hfour (k : Nat) (hk : k < bs.length) : matched s.pre (bs.take k) ≠ 4#8 := by
      rw [Ne, matched_eq_four_iff h1 h2]
      · exact hfirst k hk
      · intro j hj
        rw [List.length_take] at hj
        rw [List.take_take, min_eq_left (by omega)]
        exact hfirst j (by omega)
    obtain ⟨t, hrun, htst, htoff⟩ := searchReaches_matched hst hoff bs hfour
    simp only [matched_eq_four_iff h1 h2 hfirst] at htst htoff
    exact ⟨t, hrun.1, fun h => by rw [htst, if_neg h], fun h => ⟨by rw [htst, if_pos h], by rw [htoff, if_pos h]⟩⟩
  · obtain ⟨t, hrun, htst, -⟩ :=
      searchReaches_matched hst hoff [0x55, 0x55, 0x55, 0xAA, 0xCC] (by rw [hpre]; decide)
    exact ⟨t, hrun.1, by rw [htst, hpre, if_neg (by decide)]⟩

end Sys2Proof.Machine
end

section
/-! Reception of a whole frame (spec 42_parser.md R107 to R113, R119, R120): from stage ADDR on, what its bytes leave in FB, and
the one Message its last byte delivers. -/

namespace Sys2Proof.Machine

/-! ### What is received quietly leaves alone -/

theorem Quiet.fault {s t : State} (h : Quiet s t) : t.fault = s.fault := by unfold Quiet at h; rw [h]
theorem Quiet.crcv {s t : State} (h : Quiet s t) : t.crcv = s.crcv := by unfold Quiet at h; rw [h]
theorem Quiet.tbl {s t : State} (h : Quiet s t) : t.tbl = s.tbl := by unfold Quiet at h; rw [h]
theorem Quiet.params {s t : State} (h : Quiet s t) : t.params = s.params := by unfold Quiet at h; rw [h]
theorem Quiet.slots {s t : State} (h : Quiet s t) : t.slots = s.slots := by unfold Quiet at h; rw [h]
theorem Quiet.qcap {s t : State} (h : Quiet s t) : t.qcap = s.qcap := by unfold Quiet at h; rw [h]
theorem Quiet.qrd {s t : State} (h : Quiet s t) : t.qrd = s.qrd := by unfold Quiet at h; rw [h]
theorem Quiet.qwr {s t : State} (h : Quiet s t) : t.qwr = s.qwr := by unfold Quiet at h; rw [h]
theorem Quiet.qfull {s t : State} (h : Quiet s t) : t.qfull = s.qfull := by unfold Quiet at h; rw [h]
theorem Quiet.queue {s t : State} (h : Quiet s t) : t.queue = s.queue := by unfold Quiet at h; rw [h]; rfl

/-- What is delivered after a quiet reception is delivered by the whole of it. -/
theorem Delivered.of_quiet {s u t : State} {m : Message} (hq : Quiet s u) (h : Delivered u t m) : Delivered s t m where
  fault := h.fault.trans hq.fault
  qcap := h.qcap.trans hq.qcap
  qrd := h.qrd.trans hq.qrd
  qwr := by rw [h.qwr, hq.qwr, hq.qcap]
  qfull := by rw [h.qfull, hq.qrd]
  slots := by rw [h.slots, hq.slots, hq.qwr]
  queue := by rw [h.queue, hq.queue]

/-- Reception keeps the invariant of R31. -/
theorem inv_feedAll {bs : List Byte} {s t : State} (hinv : s.Inv) (h : feedAll bs s = .next t) : t.Inv := by
  induction bs generalizing s with
  | nil => cases h; exact hinv
  | cons b bs ih =>
    obtain ⟨u, hu⟩ := exec_next (.feed b) s
    have hstep : u.Inv := by
      obtain ⟨c, rfl⟩ | ⟨hi, -⟩ | ⟨v, st, r, d, hw, rfl, -⟩ := exec_cases hu
      · exact inv_takeFault hinv c
      · cases hi
      · cases hw with
        | nothing _ _ hn => exact absurd rfl (hn b)
        | feed _ _ _ hb => exact inv_respond (inv_feedByte hinv hb) _ _ _ _
    rw [feedAll, hu] at h
    exact ih hstep h

/-! ### The bytes before the checksum -/

/-- FB holds the address, the size and the payload of a frame. -/
structure HoldsFrame (fb : FrameBuf) (dst src n : Byte) (p : List Byte) : Prop where
  dst : fb.addr[0] = dst
  src : fb.addr[1] = src
  size : fb.size = n
  payload : fb.pay.take n.toNat = p

/-- The checksum of a frame that FB holds (R64). -/
theorem HoldsFrame.frameCrc_eq {fb : FrameBuf} {dst src n : Byte} {p : List Byte} (h : HoldsFrame fb dst src n p)
    (tbl : Vector Word 256) :
    frameCrc tbl fb.addr[0] fb.addr[1] fb.size fb.pay = crcCompute tbl ([dst, src, n] ++ p) := by
  rw [Machine.frameCrc_eq, h.dst, h.src, h.size, h.payload]

/-- The two address bytes (R107). -/
theorem quietRun_address {s : State} (hst : s.stage = .addr) (hoff : s.off = 0#8) (dst src : Byte) :
    ∃ t, QuietRun [dst, src] s t ∧ t.stage = .size ∧ t.fb.pay = s.fb.pay ∧ t.fb.addr[0] = dst ∧ t.fb.addr[1] = src := by
  have hdst : QuietRun [dst] s ((feedAddr dst s).respond .pp .ok 0#32 []) :=
    .one (by simp only [feedByte, hst]) (by rw [feedAddr_eq]; rfl)
  set u := (feedAddr dst s).respond .pp .ok 0#32 [] with hu
  have hust : u.stage = .addr := by simp [hu, feedAddr_eq, hst, hoff]
  have hsrc : QuietRun [src] u ((feedAddr src u).respond .pp .ok 0#32 []) :=
    .one (by simp only [feedByte, hust]) (by rw [feedAddr_eq]; rfl)
  refine ⟨_, hdst.append hsrc, ?_⟩
  simp [hu, feedAddr_eq, hoff]

/-- The size byte of a payload that fits: the clamp keeps it (R108). -/
theorem quietRun_size {s : State} (hst : s.stage = .size) {n : Byte} (hn : n.toNat ≤ s.params.maxPayload) :
    ∃ t, QuietRun [n] s t ∧ t.stage = (if n = 0#8 then .chk else .pay) ∧ t.off = 0#8 ∧ t.fb = { s.fb with size := n } := by
  have hclamp : BitVec.ofNat 8 (clamp s n.toNat) = n := by
    rw [clamp, min_eq_left hn, BitVec.ofNat_toNat, BitVec.setWidth_eq]
  refine ⟨_, .one (u := feedSize n s) (by simp only [feedByte, hst]) rfl, ?_⟩
  simp [feedSize, hclamp]

/-- From stage ADDR, a frame up to its checksum is quiet, and FB holds it then (R107 to R109). -/
theorem quietRun_frame {s : State} (hinv : s.Inv) (hst : s.stage = .addr) (hoff : s.off = 0#8) (dst src : Byte) {n : Byte}
    {p : List Byte} (hp : p.length = n.toNat) (hn : n.toNat ≤ s.params.maxPayload) :
    ∃ t, QuietRun ([dst, src, n] ++ p) s t ∧ t.stage = .chk ∧ t.off = 0#8 ∧ HoldsFrame t.fb dst src n p := by
  obtain ⟨v, haddr, hvst, hvpay, hdst, hsrc⟩ := quietRun_address hst hoff dst src
  obtain ⟨u, hsize, hust, huoff, hufb⟩ := quietRun_size hvst (haddr.2.1.params ▸ hn)
  have hrun : QuietRun [dst, src, n] s u := haddr.append hsize
  by_cases h0 : n = 0#8
  · obtain rfl : p = [] := List.length_eq_zero_iff.mp (by rw [hp, h0]; rfl)
    refine ⟨u, by simpa using hrun, by rw [hust, if_pos h0], huoff, ?_⟩
    rw [hufb]
    exact ⟨hdst, hsrc, rfl, by rw [h0]; rfl⟩
  · rw [if_neg h0] at hust
    have hne : p ≠ [] := by
      rintro rfl
      exact h0 (BitVec.eq_of_toNat_eq hp.symm)
    have husize : u.fb.size = n := by rw [hufb]
    have hupay : u.fb.pay.length = s.params.maxPayload := by rw [hufb, hvpay, hinv.payload]
    obtain ⟨t, hpay, htst, htoff, htsize, htaddr, -, httake⟩ :=
      quietRun_payload p u 0 hust huoff (by rw [husize, hp, Nat.zero_add]) hne (by rw [husize, hupay]; exact hn)
    rw [husize] at httake
    rw [hufb] at htaddr
    exact ⟨t, hrun.append hpay, htst, htoff, by rw [htaddr, hdst], by rw [htaddr, hsrc], by rw [htsize, husize], httake⟩

/-! ### The checksum -/

/-- The first three checksum bytes are stored and nothing else in FB is written (R110). -/
theorem quietRun_checksum {s : State} (hst : s.stage = .chk) (hoff : s.off = 0#8) (c0 c1 c2 : Byte) :
    ∃ t, QuietRun [c0, c1, c2] s t ∧ t.stage = .chk ∧ t.off = 3#8 ∧ t.fb = { s.fb with chk := t.fb.chk } ∧
      t.fb.chk[0] = c0 ∧ t.fb.chk[1] = c1 ∧ t.fb.chk[2] = c2 := by
  have hbyte (b : Byte) (u : State) (hu : u.stage = .chk) (ho : u.off.toNat < 3) :
      QuietRun [b] u ((withChk b u).respond .pp .ok 0#32 []) := by
    have hne : u.off + 1#8 ≠ 4#8 := by bv_omega
    exact .one (by simp only [feedByte, hu, feedChk_eq, if_neg hne]) rfl
  have h0 := hbyte c0 s hst (by rw [hoff]; decide)
  set u := (withChk c0 s).respond .pp .ok 0#32 [] with hu
  have h1 := hbyte c1 u hst (by simp [hu, withChk, hoff])
  set v := (withChk c1 u).respond .pp .ok 0#32 [] with hv
  have h2 := hbyte c2 v hst (by simp [hv, hu, withChk, hoff])
  refine ⟨_, h0.append (h1.append h2), ?_⟩
  simp [hv, hu, withChk, hst, hoff]

/-- The bytes of a frame after its preamble (R116). -/
def frameBody (tbl : Vector Word 256) (dst src n : Byte) (p : List Byte) : List Byte :=
  [dst, src, n] ++ p ++ le32 (crcCompute tbl ([dst, src, n] ++ p))

/-- A built frame is the preamble and the body of the truncated payload. -/
theorem buildFrame_eq_frameBody {s : State} (hp : s.params.Legal) (dst src : Byte) (d : List Byte) :
    buildFrame s dst src d = s.pre.toList ++
      frameBody s.tbl dst src (BitVec.ofNat 8 (min d.length s.params.maxPayload)) (d.take (min d.length s.params.maxPayload)) := by
  rw [buildFrame_eq s hp, frameBody, List.append_assoc]

/-- Before a frame's last byte nothing is delivered, FB holds the frame, and the last byte completes its checksum. -/
theorem quietRun_frameBody {s : State} (hinv : s.Inv) (hst : s.stage = .addr) (hoff : s.off = 0#8) (dst src : Byte) {n : Byte}
    {p : List Byte} (hp : p.length = n.toNat) (hn : n.toNat ≤ s.params.maxPayload) :
    ∃ front last t, frameBody s.tbl dst src n p = front ++ [last] ∧ QuietRun front s t ∧ t.stage = .chk ∧ t.off = 3#8 ∧
      HoldsFrame t.fb dst src n p ∧
      fromLE32 [t.fb.chk[0], t.fb.chk[1], t.fb.chk[2], last] = crcCompute s.tbl ([dst, src, n] ++ p) := by
  obtain ⟨u, hrun, hust, huoff, hfb⟩ := quietRun_frame hinv hst hoff dst src hp hn
  obtain ⟨c0, c1, c2, c3, hle⟩ : ∃ c0 c1 c2 c3, le32 (crcCompute s.tbl ([dst, src, n] ++ p)) = [c0, c1, c2, c3] :=
    ⟨_, _, _, _, rfl⟩
  obtain ⟨t, hchk, htst, htoff, htfb, h0, h1, h2⟩ := quietRun_checksum hust huoff c0 c1 c2
  refine ⟨[dst, src, n] ++ p ++ [c0, c1, c2], c3, t, by rw [frameBody, hle, List.append_assoc _ _ [c3]]; rfl, hrun.append hchk,
    htst, htoff, ?_, ?_⟩
  · rw [htfb]
    exact ⟨hfb.dst, hfb.src, hfb.size, hfb.payload⟩
  · rw [h0, h1, h2, ← hle, fromLE32_le32]

/-! ### The delivery -/

/-- The last byte of a frame that matches delivers it (R111, R112). -/
theorem exec_feed_delivers {s : State} {b : Byte} (hinv : s.Inv) (hst : s.stage = .chk) (hoff : s.off = 3#8)
    (hc : s.crcv = true) (hq : s.qcap ≠ 0#16) (hf : s.qfull = false)
    (hgood : frameCrc s.tbl s.fb.addr[0] s.fb.addr[1] s.fb.size s.fb.pay =
      fromLE32 [s.fb.chk[0], s.fb.chk[1], s.fb.chk[2], b]) :
    ∃ t tail, exec (.feed b) s = .next t ∧ t.stage = .pre ∧ t.off = 0#8 ∧
      tail.length = s.params.maxPayload - s.fb.size.toNat ∧
      Delivered s t ⟨s.fb.addr[1], s.fb.size, s.fb.pay.take s.fb.size.toNat ++ tail⟩ := by
  have hoff3 : s.off.toNat = 3 := by rw [hoff]; rfl
  have hrange : s.off.toNat ≤ 3 ∧ s.fb.size.toNat ≤ s.params.maxPayload := by
    simpa only [parserInRange, hst] using hinv.parser
  obtain ⟨hcap, hrd, hwr⟩ := hinv.indices_of_ne hq
  obtain ⟨-, -, hmatch, -, -⟩ := feedVerifiesChecksum s b (by omega) hst
  obtain ⟨tail, htail, hexec⟩ := hmatch hoff3 hc hgood hq hf hrange.2 hinv.payload
  exact ⟨_, tail, hexec, rfl, rfl, htail, rfl, rfl, rfl, rfl, rfl, rfl,
    queue_push hq (by rw [hinv.slots]; exact hcap) hrd hwr hf _⟩

/-- Once the search has found the preamble, the body of a frame is delivered by its last byte and nothing is delivered before. -/
theorem SearchReaches.delivers {s : State} {bs : List Byte} (h : SearchReaches s bs 4#8) (hinv : s.Inv) (hc : s.crcv = true)
    (hq : s.qcap ≠ 0#16) (hf : s.qfull = false) (dst src : Byte) {n : Byte} {p : List Byte} (hp : p.length = n.toNat)
    (hn : n.toNat ≤ s.params.maxPayload) :
    (∀ k < (bs ++ frameBody s.tbl dst src n p).length,
      ∃ u, feedAll ((bs ++ frameBody s.tbl dst src n p).take k) s = .next u ∧ Quiet s u) ∧
    ∃ t tail, feedAll (bs ++ frameBody s.tbl dst src n p) s = .next t ∧ t.stage = .pre ∧ t.off = 0#8 ∧
      tail.length = s.params.maxPayload - n.toNat ∧ Delivered s t ⟨src, n, p ++ tail⟩ := by
  obtain ⟨u, hsearch, hust, huoff⟩ := h
  have huq : Quiet s u := hsearch.2.1
  rw [← huq.params] at hn
  obtain ⟨front, last, v, hbody, hfront, hvst, hvoff, hfb, hchk⟩ :=
    quietRun_frameBody (inv_feedAll hinv hsearch.1) hust huoff dst src hp hn
  rw [huq.tbl] at hbody hchk
  obtain ⟨hrun, hvq, hfirst⟩ := hsearch.append hfront
  rw [hbody, ← List.append_assoc]
  refine ⟨fun k hk => ?_, ?_⟩
  · rw [List.take_append_of_le_length (by simp at hk ⊢; omega)]
    exact hfirst k
  · obtain ⟨t, tail, hexec, htst, htoff, htail, hdel⟩ := exec_feed_delivers (inv_feedAll hinv hrun) hvst hvoff
      (hvq.crcv.trans hc) (hvq.qcap ▸ hq) (hvq.qfull.trans hf) (by rw [hfb.frameCrc_eq, hvq.tbl, hchk])
    rw [hfb.src, hfb.size, hfb.payload] at hdel
    refine ⟨t, tail, ?_, htst, htoff, by rw [htail, hvq.params, hfb.size], hdel.of_quiet hvq⟩
    rw [feedAll_append, hrun]
    simp only [feedAll, hexec]

/-- The bytes of the preamble itself lead to stage ADDR, whatever they are. -/
theorem searchReaches_preamble {s : State} (hst : s.stage = .pre) (hoff : s.off = 0#8) :
    SearchReaches s s.pre.toList 4#8 := by
  obtain ⟨t, hrun, htst, htoff, -⟩ := quietRun_preamble s hst hoff
  exact ⟨t, hrun, htst, htoff⟩

/-- The truncated length fits a byte. -/
theorem toNat_truncated {s : State} (hp : s.params.Legal) (k : Nat) :
    (BitVec.ofNat 8 (min k s.params.maxPayload)).toNat = min k s.params.maxPayload := by
  have := hp.1
  simp only [BitVec.toNat_ofNat]
  omega

/-- `SearchReaches.delivers` for a built frame after the bytes `lead`, with which the search still finds its preamble. -/
theorem feedAll_buildFrame {s : State} {lead : List Byte} (h : SearchReaches s (lead ++ s.pre.toList) 4#8) (hinv : s.Inv)
    (hc : s.crcv = true) (hq : s.qcap ≠ 0#16) (hf : s.qfull = false) (dst src : Byte) (d : List Byte) :
    (∀ k < (lead ++ buildFrame s dst src d).length,
      ∃ u, feedAll ((lead ++ buildFrame s dst src d).take k) s = .next u ∧ Quiet s u) ∧
    ∃ t tail, feedAll (lead ++ buildFrame s dst src d) s = .next t ∧ t.stage = .pre ∧ t.off = 0#8 ∧
      tail.length = s.params.maxPayload - min d.length s.params.maxPayload ∧
      Delivered s t ⟨src, BitVec.ofNat 8 (min d.length s.params.maxPayload),
        d.take (min d.length s.params.maxPayload) ++ tail⟩ := by
  have hn := toNat_truncated hinv.params d.length
  have hdel := h.delivers hinv hc hq hf dst src (n := BitVec.ofNat 8 (min d.length s.params.maxPayload))
    (p := d.take (min d.length s.params.maxPayload)) (by simp [hn]) (by omega)
  rwa [List.append_assoc, ← buildFrame_eq_frameBody hinv.params, hn] at hdel

/-! ### The statements -/

/-- Settles O48: every part of the frame but its last byte is quiet, and that byte delivers. -/
theorem builtFrameRoundTrip : Obligations.BuiltFrameRoundTrip := by
  intro s dst src d hinv hz hc hq hf hst hoff f n
  obtain ⟨hfirst, hdel⟩ := feedAll_buildFrame (lead := []) (searchReaches_preamble hst hoff) hinv hc hq hf dst src d
  refine ⟨fun k hk => ?_, hdel⟩
  obtain ⟨u, hu, hquiet⟩ := hfirst k hk
  exact ⟨u, hu, hquiet.fault.trans hz, hquiet.slots, hquiet.qrd, hquiet.qwr, hquiet.qfull.trans hf, hquiet.queue⟩

/-- A spurious first byte and then the default preamble. -/
def spuriousLead : List Byte := [0xAA, 0xAA, 0xBB, 0xCC, 0xDD]

/-- With the default preamble the search of `AA AA BB CC DD` is the automaton up to its end (R120). -/
theorem searchReaches_spuriousLead {s : State} (hst : s.stage = .pre) (hoff : s.off = 0#8)
    (hpre : s.pre = #v[0xAA, 0xBB, 0xCC, 0xDD]) {k : Nat} (hk : k ≤ 5) :
    SearchReaches s (spuriousLead.take k) (matched #v[0xAA, 0xBB, 0xCC, 0xDD] (spuriousLead.take k)) := by
  have hbefore : ∀ k ≤ 5, ∀ j < (spuriousLead.take k).length,
      matched #v[0xAA, 0xBB, 0xCC, 0xDD] ((spuriousLead.take k).take j) ≠ 4#8 := by decide
  rw [← hpre] at hbefore ⊢
  exact searchReaches_matched hst hoff _ (hbefore k hk)

/-- Settles O49: on `AA AA BB CC DD` the automaton goes through 1, 1, 2, 3 to 4, and the frame follows. -/
theorem defaultPreambleResynchronises : Obligations.DefaultPreambleResynchronises := by
  intro s dst src d hinv _ hc hq hf hst hoff hpre n
  refine ⟨fun k st o hmem => ?_, ?_⟩
  · have hstages : ∀ e ∈ [(1, Stage.pre, (1 : Byte)), (2, .pre, 1), (3, .pre, 2), (4, .pre, 3), (5, .addr, 0)],
        let m := matched #v[0xAA, 0xBB, 0xCC, 0xDD] (spuriousLead.take e.1)
        e.1 ≤ 5 ∧ e.2.1 = (if m = 4#8 then .addr else .pre) ∧ e.2.2 = if m = 4#8 then 0#8 else m := by decide
    obtain ⟨hk, hest, heoff⟩ := hstages _ hmem
    obtain ⟨t, hrun, htst, htoff⟩ := searchReaches_spuriousLead hst hoff hpre hk
    exact ⟨t, hrun.1, htst.trans hest.symm, htoff.trans heoff.symm⟩
  · have hlead : SearchReaches s ([0xAA] ++ s.pre.toList) 4#8 := by
      rw [hpre]
      exact searchReaches_spuriousLead hst hoff hpre (k := 5) le_rfl
    exact (feedAll_buildFrame hlead hinv hc hq hf dst src d).2

end Sys2Proof.Machine
end

section
/-! The idle block (spec 60_exceptions.md R136): a port with nothing delivered cannot move, so nothing is chosen and nothing runs. -/

namespace Sys2Proof.Machine

variable {s : State}

/-- A port that holds no bytes, and has no pop to finish, cannot move. -/
theorem portReady_eq_false_of_portIn_nil {p : Port} (hin : s.portIn p = []) (hp : p = .cp → s.poppend = false) :
    portReady s p = false := by
  have hdecode : decode (s.portIn p) = .error .partialCommand := by rw [hin]; rfl
  by_contra hready
  exact decode_of_ready (eq_true_of_ne_false hready) hp hdecode

/-- When neither port can move, none is chosen. -/
theorem pickPort_eq_none (hpp : portReady s .pp = false) (hcp : portReady s .cp = false) : pickPort s = none := by
  simp only [pickPort, hpp, hcp]

/-- With both ports empty and no reset, fault or pop to finish, the next move is the idle one. -/
theorem nextMove_eq_idle (hr : s.rst = false) (hf : s.fault = 0x00#8) (hpp : s.ppIn = []) (hcp : s.cpIn = [])
    (hp : s.poppend = false) : nextMove s = .idle := by
  have hpick : pickPort s = none :=
    pickPort_eq_none (portReady_eq_false_of_portIn_nil hpp (by simp)) (portReady_eq_false_of_portIn_nil hcp fun _ => hp)
  simp [nextMove, hr, hf, hpick, hpp, hcp]

/-- Settles O9: the next move is the idle one, whose step returns the state it started from. -/
theorem idleBlockKeepsState : Obligations.IdleBlockKeepsState := by
  intro s hr hf hpp hcp hp
  simp only [step, nextMove_eq_idle hr hf hpp hcp hp]

end Sys2Proof.Machine
end

section
/-! Reset (spec 70_reset_and_hazards.md R137): it comes before the check of FAULT and before the choice of a port, so whatever is
latched, delivered or half done, the step is the reset. -/

namespace Sys2Proof.Machine

/-- An asserted reset is the next step, and it does not look at the rest of the state. -/
theorem step_of_rst {s : State} (hr : s.rst = true) : step s = .next s.takeReset := by
  have hmove : nextMove s = .reset := if_pos hr
  rw [step, hmove]

/-- SLOT keeps its shape at reset, whatever its unspecified contents (R27). -/
@[simp] theorem slots_length_takeReset (s : State) : s.takeReset.slots.length = s.params.qslots := by
  simp [State.takeReset, State.resetOf]

/-- FB keeps its shape at reset, whatever its unspecified contents (R21). -/
@[simp] theorem pay_length_takeReset (s : State) : s.takeReset.fb.pay.length = s.params.maxPayload := by
  simp [State.takeReset, State.resetOf, freeFrameBuf]

/-- Reset leaves no response in the producer port's record (log 6). -/
@[simp] theorem ppResp_takeReset (s : State) : s.takeReset.ppResp = [] := rfl

/-- Reset leaves no response in the consumer port's record (log 6). -/
@[simp] theorem cpResp_takeReset (s : State) : s.takeReset.cpResp = [] := rfl

/-- Settles O14: the step is the reset; what R137 specifies stands in the reset state as it is, what it leaves free has its shape,
and the response records are empty. -/
theorem resetSetsEveryElement : Obligations.ResetSetsEveryElement := by
  intro s hr
  refine ⟨s.takeReset, step_of_rst hr, rfl, rfl, rfl, rfl, rfl, rfl, rfl, rfl, rfl, rfl, rfl,
    slots_length_takeReset s, pay_length_takeReset s, by simp [ppResp_takeReset], by simp [cpResp_takeReset]⟩

end Sys2Proof.Machine
end

section
/-! Decoding and encoding are inverse (spec 30_encoding.md R48 to R58): every well-formed command comes back from its port bytes, and
the decoder accepts nothing else. -/

namespace Sys2Proof

/-! ### From the command to its bytes -/

/-- The law of `Laws.Encoded`, for every command of the map. -/
theorem Laws.Encoded.statement : ∀ i : Instr, Laws.Encoded.Statement i
  | .feed b => feed b
  | .qPush src d => qPush src d
  | .crcInit => crcInit
  | .crcCompute d => crcCompute d
  | .crcConcat w d => crcConcat w d
  | .crcSelfcheck w d => crcSelfcheck w d
  | .crcVerify d => crcVerify d
  | .crcReflect b => crcReflect b
  | .qCreate n => qCreate n
  | .qIsempty => qIsempty
  | .qIsfull => qIsfull
  | .qUsed => qUsed
  | .qFree => qFree
  | .qCapacity => qCapacity
  | .qPop => qPop
  | .qClear => qClear
  | .pSetpre w => pSetpre w
  | .pBuild dst src d => pBuild dst src d
  | .pSend dst src d => pSend dst src d

/-- Settles O1: a command's bytes are a header with a row in the map and the trailer it announces, and that is what `decode` takes. -/
theorem decodeOfEncode : Obligations.DecodeOfEncode := by
  intro i rest hwf
  obtain ⟨b0, b1, b2, b3, trailer, r, hbytes, hrow, -, hlen, hzero, hasm⟩ := Laws.Encoded.statement i hwf
  simp only [hbytes, List.cons_append]
  rw [decode_whole b0 b1 b2 b3 trailer rest r hrow hlen, if_pos hzero, hasm]

/-! ### From the bytes to the command -/

/-- Bytes that decode to a command are a legal header with every reserved field zero, the whole trailer it announces, and the
rest. -/
theorem decode_ok_parts {bs rest : List Byte} {i : Instr} (h : decode bs = .ok (i, rest)) :
    ∃ op a b c trailer r, bs = op :: a :: b :: c :: (trailer ++ rest) ∧ opRow op = some r ∧
      trailer.length = trailerLen r.format (fromLE32 [op, a, b, c]) ∧
      reservedZero r (fromLE32 [op, a, b, c]) = true ∧ assemble (fromLE32 [op, a, b, c]) trailer = some i := by
  match bs with
  | [] | [_] | [_, _] | [_, _, _] => cases h
  | op :: a :: b :: c :: after =>
    cases hrow : opRow op with
    | none => simp [decode, hrow] at h
    | some r =>
      obtain ⟨trailer, rest', hlen, rfl⟩ := Machine.exists_trailer_of_not_partial hrow (by rw [h]; simp)
      rw [decode_whole op a b c trailer rest' r hrow hlen] at h
      cases hzero : reservedZero r (fromLE32 [op, a, b, c]) with
      | false => simp [hzero] at h
      | true =>
        cases hasm : assemble (fromLE32 [op, a, b, c]) trailer with
        | none => simp [hzero, hasm] at h
        | some j =>
          obtain ⟨rfl, rfl⟩ : j = i ∧ rest' = rest := by simpa [hzero, hasm] using h
          exact ⟨op, a, b, c, trailer, r, rfl, hrow, hlen, hzero, hasm⟩

/-- A trailer that begins with an operand word is that word's bytes and the data after them. -/
theorem le32_fromLE32_take_append_drop {trailer : List Byte} (h : 4 ≤ trailer.length) :
    le32 (fromLE32 (trailer.take 4)) ++ trailer.drop 4 = trailer := by
  match trailer, h with
  | a :: b :: c :: d :: rest, _ =>
    simp only [List.take_succ_cons, List.take_zero, List.drop_succ_cons, List.drop_zero]
    rw [le32_fromLE32]
    rfl

/-- Data as long as N announces is carried by N. -/
theorem length_le_and_le16_lenN {op a b c : Byte} {d : List Byte}
    (h : d.length = (headerN (fromLE32 [op, a, b, c])).toNat) : d.length ≤ 65535 ∧ le16 (lenN d) = [b, c] :=
  ⟨by have := (headerN (fromLE32 [op, a, b, c])).isLt; omega, Machine.le16_lenN op a b c d h⟩

/-- Data as long as C announces is carried by C. -/
theorem length_le_and_lenC {c : Byte} {d : List Byte} (h : d.length = c.toNat) : d.length ≤ 255 ∧ lenC d = c :=
  ⟨by have := c.isLt; omega, Machine.lenC_eq c d h⟩

/-- The opcodes of each format (R52). -/
def opcodesOf : Format → List Byte
  | .fn => [0x10, 0x21, 0x22, 0x23, 0x24, 0x25, 0x26, 0x27]
  | .fb => [0x01, 0x15]
  | .fl => [0x11, 0x14]
  | .fwl => [0x12, 0x13]
  | .fw => [0x30]
  | .fq => [0x20]
  | .fm => [0x02, 0x31, 0x32]

theorem opRow_mem_opcodesOf {op : Byte} {r : OpRow} (h : opRow op = some r) : op ∈ opcodesOf r.format := by
  have hmap : ∀ r ∈ opcodeMap, r.op ∈ opcodesOf r.format := by decide
  exact opRow_op h ▸ hmap r (Machine.opRow_mem op r h)

/-- B is reserved in the row of Q_PUSH (R50). -/
theorem reservesB_of_qPush {r : OpRow} (h : opRow 0x02 = some r) : r.reservesB = true := by
  cases h; rfl

/-- A command assembled from a header with every reserved field zero and its whole trailer is well formed, and these are its
bytes: format by format, the fields of the header are those the encoder writes. -/
theorem encode_of_assemble {op a b c : Byte} {trailer : List Byte} {r : OpRow} {i : Instr} (hrow : opRow op = some r)
    (hlen : trailer.length = trailerLen r.format (fromLE32 [op, a, b, c]))
    (hzero : reservedZero r (fromLE32 [op, a, b, c]) = true) (hasm : assemble (fromLE32 [op, a, b, c]) trailer = some i) :
    WellFormed i ∧ encode i = op :: a :: b :: c :: trailer := by
  have hop := opRow_mem_opcodesOf hrow
  cases hf : r.format <;>
    simp only [hf, opcodesOf, List.mem_cons, List.not_mem_nil, or_false] at hop <;>
    simp only [hf, trailerLen, headerC_bytes] at hlen <;>
    simp only [hf, reservedZero, headerA_bytes, headerB_bytes, headerC_bytes, Bool.and_eq_true, beq_iff_eq] at hzero
  case fn =>
    obtain ⟨⟨rfl, rfl⟩, rfl⟩ := hzero
    obtain rfl := List.length_eq_zero_iff.mp hlen
    obtain rfl | rfl | rfl | rfl | rfl | rfl | rfl | rfl := hop <;> cases hasm <;> exact ⟨rfl, rfl⟩
  case fb =>
    obtain ⟨rfl, rfl⟩ := hzero
    obtain rfl := List.length_eq_zero_iff.mp hlen
    obtain rfl | rfl := hop <;> simp [assemble] at hasm <;> subst hasm <;> exact ⟨rfl, rfl⟩
  case fl =>
    subst hzero
    obtain ⟨hfits, hN⟩ := length_le_and_le16_lenN hlen
    obtain rfl | rfl := hop <;> simp [assemble] at hasm <;> subst hasm <;>
      exact ⟨decide_eq_true hfits, by simp [encode, hN]⟩
  case fwl =>
    subst hzero
    have hdata : (trailer.drop 4).length = (headerN (fromLE32 [op, 0, b, c])).toNat := by rw [List.length_drop, hlen]; omega
    have hword := le32_fromLE32_take_append_drop (trailer := trailer) (by omega)
    obtain ⟨hfits, hN⟩ := length_le_and_le16_lenN hdata
    obtain rfl | rfl := hop <;> simp [assemble] at hasm <;> subst hasm <;>
      exact ⟨decide_eq_true hfits, by simp [encode, hN, hword]⟩
  case fw =>
    obtain ⟨⟨rfl, rfl⟩, rfl⟩ := hzero
    have hword := le32_fromLE32_take_append_drop hlen.ge
    rw [List.drop_of_length_le hlen.le, List.append_nil] at hword
    subst hop
    simp [assemble] at hasm
    subst hasm
    exact ⟨rfl, by simp [encode, hword]⟩
  case fq =>
    subst hzero hop
    obtain rfl := List.length_eq_zero_iff.mp hlen
    simp [assemble] at hasm
    subst hasm
    exact ⟨rfl, by simp [encode]⟩
  case fm =>
    obtain ⟨hfits, hC⟩ := length_le_and_lenC hlen
    obtain rfl | rfl | rfl := hop <;> simp [assemble] at hasm <;> subst hasm
    · obtain rfl : b = 0 := by simpa [reservesB_of_qPush hrow] using hzero
      exact ⟨decide_eq_true hfits, by simp [encode, hC]⟩
    · exact ⟨decide_eq_true hfits, by simp [encode, hC]⟩
    · exact ⟨decide_eq_true hfits, by simp [encode, hC]⟩

/-- Settles O2: the header and the trailer that `decode` takes are those of the command it assembles. -/
theorem encodeOfDecode : Obligations.EncodeOfDecode := by
  intro bs rest i h
  obtain ⟨op, a, b, c, trailer, r, rfl, hrow, hlen, hzero, hasm⟩ := decode_ok_parts h
  obtain ⟨hwf, hbytes⟩ := encode_of_assemble hrow hlen hzero hasm
  exact ⟨hwf, by rw [hbytes]; rfl⟩

/-- Settles O3, by running the decoder. -/
theorem specWordsDecode : Obligations.SpecWordsDecode :=
  ⟨rfl, rfl, rfl, rfl, rfl, rfl, rfl, rfl, rfl⟩

end Sys2Proof
end

section
/-! The invariant of 10_state.md R31: every legal choice of the parameters meets it at reset, and every step keeps it. -/

namespace Sys2Proof.Machine

/-! ### Reset -/

/-- With legal parameters the state at reset meets the invariant, whatever the unspecified elements hold (R31, R137). -/
theorem inv_resetOf {p : Params} (hp : p.Legal) (turns : List Port) (k : Nat) : (State.resetOf p turns k).Inv where
  params := hp
  fault := Nat.zero_le _
  table h := by cases h
  slots := by simp [State.resetOf]
  payload := by simp [State.resetOf, freeFrameBuf]
  parser := Nat.zero_le _
  indices := .inl rfl
  full h := by cases h
  queued h := absurd rfl h
  split h := by cases h
  held _ h := by cases h

/-- Settles O16: the reset state for any legal parameters, those of R5 among them. -/
theorem resetMeetsInvariant : Obligations.ResetMeetsInvariant :=
  ⟨inv_resetOf (by decide) _ _, fun _ turns k hp => inv_resetOf hp turns k⟩

/-! ### Commands -/

/-- With the indices in the ring the queue never holds more Messages than its capacity (R98). -/
theorem used_le_qcap {s : State} (hc : s.qcap ≠ 0#16) : s.used ≤ s.qcap.toNat := by
  unfold State.used
  split
  · exact le_rfl
  · exact (Nat.mod_lt _ (qcap_pos hc)).le

/-- An empty queue whose indices are equal holds no Message. -/
theorem used_eq_zero_of_eq {s : State} (hf : s.qfull = false) (h : s.qrd = s.qwr) : s.used = 0 := by
  rw [used_of_not_full hf, h, Nat.add_sub_cancel_left, Nat.mod_self]

/-- On a full queue every slot of the ring is held, so every index of the ring names a Message of legal size. -/
theorem State.Inv.queued_all {s : State} (h : s.Inv) (hc : s.qcap ≠ 0#16) (hf : s.qfull = true) (k : Nat) {m : Message}
    (hm : s.slots[s.slotIndex k]? = some m) : m.size.toNat ≤ s.params.maxPayload := by
  have hk : s.slotIndex k = s.slotIndex (k % s.qcap.toNat) := by simp [State.slotIndex]
  refine h.queued hc (k % s.qcap.toNat) ?_ m (hk ▸ hm)
  rw [used_of_full hf]
  exact Nat.mod_lt _ (qcap_pos hc)

/-- An advance of QRD and a clear of QFULL leave the indices in the ring and no Message in the queue that it did not hold. -/
theorem inv_popWhole {s : State} (h : s.Inv) (hc : s.qcap ≠ 0#16) (he : s.isEmpty = false) (hp : s.poppend = false) :
    ({ s with qrd := advance s.qrd s.qcap, qfull := false } : State).Inv := by
  obtain ⟨hcap, hrd, hwr⟩ := h.indices_of_ne hc
  obtain ⟨hused, hindex⟩ := used_pop hc hrd hwr (fun hf => h.full hf hp) he
  refine { h with indices := .inr ⟨hcap, advance_lt _ _ hc, hwr⟩, full := by simp, queued := fun _ k hk m hm => ?_ }
  exact h.queued hc (k + 1) (by omega) m (hindex k ▸ hm)

/-- Step 1 of a split pop: QFULL stays, and the Message held has a legal size (R90). -/
theorem inv_popSplit {s : State} (h : s.Inv) (hc : s.qcap ≠ 0#16) (he : s.isEmpty = false) (hp : s.poppend = false)
    (hs : s.params.popSplit = true) :
    ({ s with qrd := advance s.qrd s.qcap, popHeld := some (s.slotRead s.qrd) } : State).Inv := by
  obtain ⟨hcap, hrd, hwr⟩ := h.indices_of_ne hc
  obtain ⟨hused, hindex⟩ := used_pop hc hrd hwr (fun hf => h.full hf hp) he
  refine { h with
    indices := .inr ⟨hcap, advance_lt _ _ hc, hwr⟩, full := by simp [State.poppend], queued := fun _ k hk m hm => ?_,
    split := fun _ => ⟨hs, hc⟩, held := fun m hm => ?_ }
  · cases hf : s.qfull with
    | true => exact h.queued_all hc hf (k + 1) (hindex k ▸ hm)
    | false =>
      simp only [State.used, hf] at hk hused
      exact h.queued hc (k + 1) (by simp only [State.used, hf]; omega) m (hindex k ▸ hm)
  · cases hm
    exact popped_size h hc he hp

/-- A clear of QFULL leaves no Message in the queue that it did not hold. -/
theorem used_clearFull_le {s : State} (hc : s.qcap ≠ 0#16) : ({ s with qfull := false } : State).used ≤ s.used := by
  cases hf : s.qfull with
  | true => rw [used_of_full hf]; exact used_le_qcap (s := { s with qfull := false }) hc
  | false => simp [State.used, hf]

/-- Step 2 of a split pop: QFULL and the held Message are cleared (R90). -/
theorem inv_popFinish {s : State} (h : s.Inv) : (popFinish s).Inv := by
  cases hm : s.popHeld with
  | none => simpa only [popFinish, hm] using h
  | some m =>
    have hc : s.qcap ≠ 0#16 := (h.split (by simp [State.poppend, hm])).2
    have hcleared : ({ s with qfull := false, popHeld := none } : State).Inv :=
      { h with
        full := by simp
        queued := fun _ k hk => h.queued hc k (hk.trans_le (used_clearFull_le hc))
        split := by simp [State.poppend]
        held := by simp }
    rw [popFinish_of_held hm]
    exact inv_respond hcleared _ _ _ _

/-- Q_CREATE leaves an empty queue, whose indices are both 0 (R86). -/
theorem inv_create {s : State} (h : s.Inv) {n : Half} (h0 : n ≠ 0#16) (hn : n.toNat ≤ s.params.qslots) :
    ({ s with qcap := n, qrd := 0#16, qwr := 0#16, qfull := false } : State).Inv :=
  { h with
    indices := .inr ⟨hn, qcap_pos h0, qcap_pos h0⟩
    full := by simp
    queued := fun _ k hk => by rw [used_eq_zero_of_eq rfl rfl] at hk; omega
    split := fun hp => ⟨(h.split hp).1, h0⟩ }

/-- Q_CLEAR leaves an empty queue, whose indices are both QWR (R97). -/
theorem inv_clear {s : State} (h : s.Inv) (hc : s.qcap ≠ 0#16) : ({ s with qrd := s.qwr, qfull := false } : State).Inv := by
  obtain ⟨hcap, -, hwr⟩ := h.indices_of_ne hc
  exact { h with
    indices := .inr ⟨hcap, hwr, hwr⟩
    full := by simp
    queued := fun _ k hk => by rw [used_eq_zero_of_eq rfl rfl] at hk; omega }

/-- Without POP_SPLIT nothing is ever held between two steps. -/
theorem State.Inv.poppend_of_whole {s : State} (h : s.Inv) (hs : s.params.popSplit = false) : s.poppend = false := by
  by_contra hp
  have := (h.split (eq_true_of_ne_false hp)).1
  simp [hs] at this

/-- What a command writes keeps the invariant. -/
theorem Written.inv {i : Instr} {s u : State} (hw : Written i s u) (h : s.Inv) : u.Inv := by
  cases hw with
  | nothing => exact h
  | crcInit => exact { h with table := fun _ => rfl }
  | create n _ h0 hn => exact inv_create h h0 hn
  | push src d _ hd hc hf =>
    refine inv_push h hc hf _ ?_
    have := h.params.1
    change (lenC d).toNat ≤ _
    rw [lenC_toNat (by omega)]
    exact hd
  | pop _ hc he hs => exact inv_popWhole h hc he (h.poppend_of_whole hs)
  | clear _ hc => exact inv_clear h hc
  | setpre w => exact { h with }
  | send dst src d => exact { h with }
  | feed b _ _ hb => exact inv_feedByte h hb

/-- Every command keeps the invariant; Q_POP is admitted with no pop between its steps. -/
theorem inv_exec {i : Instr} {s t : State} (h : s.Inv) (hp : i = .qPop → s.poppend = false) (he : exec i s = .next t) :
    t.Inv := by
  obtain ⟨c, rfl⟩ | ⟨hi, hs, hne, hc, rfl⟩ | ⟨u, st, r, d, hw, rfl, -⟩ := exec_cases he
  · exact inv_takeFault h c
  · exact inv_popSplit h hc hne (hp hi) hs
  · exact inv_respond (hw.inv h) _ _ _ _

/-! ### Steps -/

/-- The choice of a port keeps the invariant. -/
theorem Serves.inv {s t : State} {p : Port} (hs : Serves s p t) (h : s.Inv) : t.Inv := by
  rw [hs.eq]
  exact inv_inputs h s.ppIn s.cpIn _ _

theorem inv_setPortIn {s : State} (h : s.Inv) (p : Port) (bs : List Byte) : (s.setPortIn p bs).Inv := by
  cases p
  · exact inv_inputs h bs s.cpIn s.turns s.draws
  · exact inv_inputs h s.ppIn bs s.turns s.draws

/-- The consumer port runs no command while a pop is between its steps (R57, R90). -/
theorem Serves.poppend_of_run {s t u : State} {i : Instr} (hs : Serves s .cp t) (hr : Machine.nextMove s = .run i u) :
    s.poppend = false := by
  by_contra hp
  rw [hs.nextMove, admission, if_pos ⟨rfl, hs.poppend.trans (eq_true_of_ne_false hp)⟩] at hr
  cases hr

/-- Settles O17: each move of the block keeps the invariant. -/
theorem stepKeepsInvariant : Obligations.StepKeepsInvariant := by
  intro s t h hstep
  obtain ⟨-, hm⟩ | ⟨-, -, hm⟩ | ⟨-, -, hm | hm⟩ | ⟨p, v, hs, ⟨-, -, hm⟩ | ⟨c, hm⟩ | ⟨i, rest, -, hi, hm⟩⟩ :=
    nextMove_cases s
  all_goals simp only [step, hm] at hstep
  · cases hstep; exact inv_resetOf h.params _ _
  · cases hstep
  · cases hstep; exact h
  · cases hstep
  · cases hstep; exact inv_popFinish (hs.inv h)
  · cases hstep; exact inv_takeFault (hs.inv h) c
  · refine inv_exec (inv_setPortIn (hs.inv h) p rest) (fun hpop => ?_) hstep
    obtain rfl : p = .cp := by rw [← hi, hpop]; rfl
    rw [State.setPortIn_poppend, hs.poppend, hs.poppend_of_run hm]

end Sys2Proof.Machine
end

section
/-! What every command leaves alone (spec 10_state.md R15, 20_memory.md R41, 30_encoding.md R59, 60_exceptions.md R123 to R126):
frames, faults and responses, each from the cases of `exec_cases`. -/

namespace Sys2Proof.Machine

variable {i : Instr} {s t u : State}

/-! ### Writers -/

/-- A received byte writes neither the CRC unit, PRE, QCAP, QRD, the held Message, TX nor the model's own inputs. -/
theorem feedByte_frame {b : Byte} (h : feedByte b s = .ok u) :
    u = { s with
      stage := u.stage, fb := u.fb, off := u.off, qwr := u.qwr, qfull := u.qfull, slots := u.slots, draws := u.draws } := by
  obtain h | ⟨-, -, -, -, -, -, h⟩ := feedByte_cases h
  · rw [h]
  · rw [h]; rfl

/-- Settles O53: a fault entry writes FAULT alone, a response its record alone, and each write of `Written` is by a command that
R15 lists. -/
theorem onlyItsWritersChangeAnElement : Obligations.OnlyItsWritersChangeAnElement := by
  intro i s t h
  obtain ⟨c, rfl⟩ | ⟨rfl, -, -, -, rfl⟩ | ⟨u, st, r, d, hw, rfl, -⟩ := exec_cases h
  · simp
  · simp
  · cases hw with
    | feed b _ _ hb =>
      rw [feedByte_frame hb]
      simp
    | _ => simp

/-- A command leaves the pending bytes of both ports alone. -/
theorem exec_portIn (h : exec i s = .next t) (p : Port) : t.portIn p = s.portIn p := by
  obtain ⟨-, -, -, -, -, -, -, -, -, -, -, hpp, hcp, -, -⟩ := onlyItsWritersChangeAnElement i s t h
  cases p
  · exact hpp
  · exact hcp

/-- The eleven commands that R41 lists. -/
def readingCommands (w : Word) (b dst src : Byte) (d : List Byte) : List Instr :=
  [.qIsempty, .qIsfull, .qUsed, .qFree, .qCapacity, .crcCompute d, .crcConcat w d, .crcSelfcheck w d, .crcVerify d,
    .crcReflect b, .pBuild dst src d]

/-- None of the eleven is a command of the producer port, nor Q_POP. -/
theorem readingCommands_port {w : Word} {b dst src : Byte} {d : List Byte} (hi : i ∈ readingCommands w b dst src d) :
    i.port = .cp ∧ i ≠ .qPop := by
  simp only [readingCommands, List.mem_cons, List.not_mem_nil, or_false] at hi
  obtain rfl | rfl | rfl | rfl | rfl | rfl | rfl | rfl | rfl | rfl | rfl := hi <;> exact ⟨rfl, nofun⟩

/-- None of the eleven writes anything. -/
theorem Written.eq_of_reading {w : Word} {b dst src : Byte} {d : List Byte} (hi : i ∈ readingCommands w b dst src d)
    (h : Written i s u) : u = s := by
  cases h with
  | nothing => rfl
  | _ => simp [readingCommands] at hi

/-- Settles O54: such a command ends in a fault taken or in a response over the state it started from. -/
theorem readingCommandsWriteNothing : Obligations.ReadingCommandsWriteNothing := by
  intro w b dst src d i hi s t h
  obtain ⟨hport, hpop⟩ := readingCommands_port hi
  obtain ⟨c, rfl⟩ | ⟨hi', -⟩ | ⟨u, st, r, data, hw, rfl, -⟩ := exec_cases h
  · unfold State.takeFault
    split <;> rfl
  · exact absurd hi' hpop
  · rw [hw.eq_of_reading hi, hport]
    rfl

/-! ### Faults -/

/-- A command takes a fault, in the state before it, or it leaves FAULT as it was. -/
theorem exec_fault_cases (h : exec i s = .next t) : (∃ c, t = s.takeFault c) ∨ t.fault = s.fault := by
  obtain hc | ⟨-, -, -, -, rfl⟩ | ⟨u, st, r, d, hw, rfl, -⟩ := exec_cases h
  · exact .inl hc
  · exact .inr rfl
  · exact .inr (by rw [State.respond_fault, (hw.portResp .pp).2])

/-- With FAULT at 0x00, a command that leaves it nonzero changes nothing else (R124). -/
theorem exec_fault_precise (hf : s.fault = 0x00#8) (h : exec i s = .next t) (ht : t.fault ≠ 0x00#8) :
    ∃ c : FaultCode, t = { s with fault := c.code } := by
  obtain ⟨c, rfl⟩ | hkept := exec_fault_cases h
  · exact ⟨c, State.takeFault_of_zero s c hf⟩
  · exact absurd (hkept.trans hf) ht

/-- FAULT is written only while it holds 0x00 (R124). -/
theorem exec_fault_of_ne_zero (hf : s.fault ≠ 0x00#8) (h : exec i s = .next t) : t.fault = s.fault := by
  obtain ⟨c, rfl⟩ | hkept := exec_fault_cases h
  · rw [State.takeFault_of_ne_zero s c hf]
  · exact hkept

/-- The codes of R123 are 0x01 to 0x08. -/
theorem FaultCode.code_range (c : FaultCode) : 1 ≤ c.code.toNat ∧ c.code.toNat ≤ 8 := by
  cases c <;> decide

@[simp] theorem popFinish_fault : (popFinish s).fault = s.fault := by
  unfold popFinish
  split <;> simp

@[simp] theorem popFinish_portIn (p : Port) : (popFinish s).portIn p = s.portIn p := by
  unfold popFinish
  split <;> cases p <;> rfl

@[simp] theorem takeFault_portIn (c : FaultCode) (p : Port) : (s.takeFault c).portIn p = s.portIn p := by
  cases p
  · exact State.takeFault_ppIn s c
  · exact State.takeFault_cpIn s c

/-- Two states that agree in every element of R15, the parameters, the responses and the reset request, FAULT apart: what the ports
hold, whose turn it was and the draws are left free. -/
def AgreesButFault (s t : State) : Prop :=
  t = { s with fault := t.fault, ppIn := t.ppIn, cpIn := t.cpIn, turns := t.turns, draws := t.draws }

/-- The bytes taken off a port and the choice of the port are no change of an element of R15. -/
theorem Serves.agrees_setPortIn {p : Port} (hs : Serves s p u) (bs : List Byte) : AgreesButFault s (u.setPortIn p bs) := by
  unfold AgreesButFault
  rw [hs.eq]
  cases p <;> rfl

/-- A step that leaves FAULT nonzero from 0x00 has latched a code of R123 and changes nothing else (R124). -/
theorem step_fault_precise (hr : s.rst = false) (hf : s.fault = 0x00#8) (h : step s = .next t) (ht : t.fault ≠ 0x00#8) :
    AgreesButFault s t ∧ ∃ c : FaultCode, t.fault = c.code := by
  obtain ⟨hr', -⟩ | ⟨-, hf', -⟩ | ⟨-, -, hm | hm⟩ | ⟨p, v, hs, ⟨-, -, hm⟩ | ⟨c, hm⟩ | ⟨i, rest, -, -, hm⟩⟩ :=
    nextMove_cases s
  · simp [hr] at hr'
  · exact absurd hf hf'
  all_goals simp only [step, hm] at h
  · cases h; exact absurd hf ht
  · cases h
  · cases h
    exact absurd (by rw [popFinish_fault, hs.fault]) ht
  · cases h
    rw [State.takeFault_of_zero v c hs.fault, hs.eq]
    exact ⟨rfl, c, rfl⟩
  · obtain ⟨c, rfl⟩ := exec_fault_precise (by rw [State.setPortIn_fault, hs.fault]) h ht
    refine ⟨?_, c, rfl⟩
    have := hs.agrees_setPortIn rest
    unfold AgreesButFault at this ⊢
    rw [this]

/-- With a fault latched and reset not asserted no step is enabled (R124). -/
theorem step_of_fault (hr : s.rst = false) (hf : s.fault ≠ 0x00#8) : step s = .fault (.stuck s.fault) := by
  have hmove : nextMove s = .stuck := by simp [nextMove, hr, hf]
  rw [step, hmove]

/-- Settles O11: fault entry is the only way FAULT changes, and it runs on the state before the command. -/
theorem faultIsPreciseAndFinal : Obligations.FaultIsPreciseAndFinal := by
  refine ⟨fun i s t hf h ht => ?_, fun i s t => exec_fault_of_ne_zero, fun s t hr hf h ht => ?_, fun s => step_of_fault⟩
  · obtain ⟨c, rfl⟩ := exec_fault_precise hf h ht
    rfl
  · exact (step_fault_precise hr hf h ht).1

/-- Settles O13: reset writes 0x00, no step is enabled while a fault is latched, and what a step latches from 0x00 is a code. -/
theorem faultLatchesFirstCode : Obligations.FaultLatchesFirstCode := by
  intro s t h
  cases hr : s.rst with
  | true =>
    rw [step_of_rst hr] at h
    cases h
    exact .inr (.inr ⟨rfl, rfl⟩)
  | false =>
    by_cases hf : s.fault = 0x00#8
    · by_cases ht : t.fault = 0x00#8
      · exact .inl (ht.trans hf.symm)
      · obtain ⟨-, c, hc⟩ := step_fault_precise hr hf h ht
        exact .inr (.inl ⟨hf, hc ▸ c.code_range⟩)
    · rw [step_of_fault hr hf] at h
      cases h

/-! ### Which fault -/

/-- The fault that a command's statements raise. -/
def raised : Result → Option FaultCode
  | .ok _ => none
  | .error c => some c

/-- A command whose statements raise `e`, and whose completion leaves FAULT alone. -/
def RaisesOnly (s : State) (r : Result) (e : Option FaultCode) : Prop :=
  raised r = e ∧ ∀ t, r = .ok t → t.fault = s.fault

theorem RaisesOnly.ok (h : t.fault = s.fault) : RaisesOnly s (.ok t) none :=
  ⟨rfl, fun _ hu => by cases hu; exact h⟩

theorem RaisesOnly.error (s : State) (c : FaultCode) : RaisesOnly s (.error c) (some c) :=
  ⟨rfl, nofun⟩

/-- A check before the rest of a command's statements raises first (R125). -/
theorem RaisesOnly.ite {P : Prop} [Decidable P] {r r' : Result} {e e' : Option FaultCode} (h : P → RaisesOnly s r e)
    (h' : ¬ P → RaisesOnly s r' e') : RaisesOnly s (if P then r else r') (if P then e else e') := by
  split
  · exact h ‹_›
  · exact h' ‹_›

theorem RaisesOnly.requireCrc (h : t.fault = s.fault) :
    RaisesOnly s (requireCrc s (.ok t)) (if s.crcv then none else some .crcNotInit) :=
  .ite (fun _ => .ok h) fun _ => .error s _

theorem RaisesOnly.requireQueue {r : Result} (h : RaisesOnly s r none) :
    RaisesOnly s (requireQueue s r) (if s.qcap = 0#16 then some .queueNotCreated else none) :=
  .ite (fun _ => .error s _) fun _ => h

/-- What runs after a command's statements raises nothing. -/
theorem RaisesOnly.map {r : Result} {e : Option FaultCode} {f : State → State} (h : RaisesOnly s r e)
    (hf : ∀ u, (f u).fault = u.fault) : RaisesOnly s (r.map f) e := by
  cases r with
  | error c => exact ⟨h.1, nofun⟩
  | ok u => exact ⟨h.1, fun _ hu => by cases hu; rw [hf, h.2 u rfl]⟩

/-- The push primitive raises QUEUE_NOT_CREATED alone (R87). -/
theorem raisesOnly_queuePush (s : State) (m : Message) :
    RaisesOnly s (queuePush s m) (if s.qcap = 0#16 then some .queueNotCreated else none) := by
  refine .requireQueue ?_
  split <;> exact .ok rfl

/-- Verify raises CRC_NOT_INIT first, and then, on a match, what the push raises (R111). -/
theorem raisesOnly_verify (s : State) : RaisesOnly s (verify s)
    (if s.crcv then
      if checksumMatches s then if s.qcap = 0#16 then some .queueNotCreated else none else none
    else some .crcNotInit) :=
  .ite (fun _ => .map (.ite (fun _ => raisesOnly_queuePush s _) fun _ => .ok rfl) fun _ => rfl) fun _ => .error s _

/-- A received byte raises what Verify raises, at the end of the checksum, and nothing before (R105 to R111). -/
theorem raisesOnly_feedByte (b : Byte) (s : State) : RaisesOnly s (feedByte b s) (faultOf (.feed b) s) := by
  by_cases hlast : s.stage = .chk ∧ s.off = 3#8
  · have ⟨hst, hoff⟩ := hlast
    have hverify : feedByte b s = verify (withChk b s) := by
      simp only [feedByte, hst, feedChk_eq, hoff]
      rfl
    have hmatch := checksumMatches_withChk b hoff
    have h := raisesOnly_verify (withChk b s)
    simp only [hmatch] at h
    rw [hverify, faultOf, if_pos hlast]
    exact h
  · obtain ⟨u, hu⟩ : ∃ u, feedByte b s = .ok u := by
      cases hb : feedByte b s with
      | ok u => exact ⟨u, rfl⟩
      | error c =>
        obtain ⟨hst, hoff, -⟩ := feedByte_error hb
        exact absurd ⟨hst, by bv_omega⟩ hlast
    rw [hu, faultOf, if_neg hlast]
    refine .ok ?_
    rw [feedByte_frame hu]

/-- Each command is its statements, ended; they raise the fault that `faultOf` reads off its checks. -/
theorem exec_eq_finish (i : Instr) (s : State) : ∃ r, exec i s = finish s r ∧ RaisesOnly s r (faultOf i s) := by
  cases i with
  | feed b => exact ⟨_, rfl, (raisesOnly_feedByte b s).map fun _ => rfl⟩
  | qPush src d => exact ⟨_, rfl, .ite (fun _ => .error s _) fun _ => (raisesOnly_queuePush s _).map fun _ => rfl⟩
  | crcInit => exact ⟨.ok _, rfl, .ok rfl⟩
  | crcReflect b => exact ⟨.ok _, rfl, .ok rfl⟩
  | pSetpre w => exact ⟨.ok _, rfl, .ok rfl⟩
  | crcCompute | crcConcat | crcSelfcheck | crcVerify | pBuild | pSend => exact ⟨_, rfl, .requireCrc rfl⟩
  | qCreate n => exact ⟨_, rfl, .ite (fun _ => .error s _) fun _ => .ite (fun _ => .error s _) fun _ => .ok rfl⟩
  | qIsempty | qIsfull | qUsed | qFree | qCapacity | qClear => exact ⟨_, rfl, .requireQueue (.ok rfl)⟩
  | qPop =>
    refine ⟨_, rfl, .requireQueue ?_⟩
    split
    · exact .ok rfl
    · split <;> exact .ok rfl

/-- Settles O12: a command ends as its statements do, in the fault they raise or with FAULT left at 0x00. -/
theorem commandRaisesItsFault : Obligations.CommandRaisesItsFault := by
  intro i s hf
  obtain ⟨r, hexec, hraised, hkept⟩ := exec_eq_finish i s
  rw [hexec, ← hraised]
  cases r with
  | error c => exact ⟨fun _ he => by cases he; exact finish_error_of_zero hf c, nofun⟩
  | ok t => exact ⟨nofun, fun _ => ⟨t, rfl, (hkept t rfl).trans hf⟩⟩

/-! ### Responses -/

/-- Settles O57: a fault taken and step 1 of a split pop respond nothing; every other end of a command is one response on its
own port over a write that touches no record. -/
theorem oneResponseToTheIssuingPort : Obligations.OneResponseToTheIssuingPort := by
  intro i s t hf h
  obtain ⟨c, rfl⟩ | ⟨rfl, hs, he, -, rfl⟩ | ⟨u, st, r, d, hw, rfl, hempty, hpop⟩ := exec_cases h
  · have hkept (p : Port) : (s.takeFault c).portResp p = s.portResp p := by
      cases p
      · exact State.takeFault_ppResp s c
      · exact State.takeFault_cpResp s c
    exact ⟨hkept _, fun _ => hkept _, fun h0 => absurd h0 (takeFault_fault_ne_zero c)⟩
  · exact ⟨rfl, fun _ => rfl, fun _ hsplit => absurd ⟨rfl, hs, he⟩ hsplit⟩
  · obtain ⟨hother, hown⟩ := respond_portResp u i.port st r d
    obtain ⟨hrecord, hfault⟩ := hw.portResp i.port
    have hzero : (u.respond i.port st r d).fault = 0x00#8 := by rw [State.respond_fault, hfault, hf]
    have hwhole : ¬ (i = .qPop ∧ s.params.popSplit = true ∧ s.isEmpty = false) := by
      rintro ⟨hi, hs, he⟩
      simpa [hs, he] using hpop hi
    refine ⟨by rw [hother, (hw.portResp _).1], ?_, fun _ _ => ⟨⟨st, r, d⟩, by rw [hown, hrecord], fun hst => ?_⟩⟩
    · rintro (hne | hsplit)
      · exact absurd hzero hne
      · exact absurd hsplit hwhole
    · obtain ⟨hi, -, hr, hd⟩ := hempty hst
      exact ⟨hi, hr, hd⟩

end Sys2Proof.Machine
end

section
/-! One step of the block (spec 20_memory.md R40, R44, R45; 30_encoding.md R57): the port that moves, the command it runs, and the
bytes the step takes. -/

namespace Sys2Proof.Machine

variable {s t : State} {p : Port}

/-! ### The choice of a port (R45) -/

/-- The one port that can move is chosen, and the choice takes neither a turn nor a draw. -/
theorem pickPort_of_one (hp : portReady s p = true) (ho : portReady s p.other = false) : pickPort s = some (p, s) := by
  cases p <;> simp only [Port.other] at ho <;> simp only [pickPort, hp, ho]

/-- Of two ports that can move the host's next turn names one. -/
theorem pickPort_of_turn (hpp : portReady s .pp = true) (hcp : portReady s .cp = true) {rest : List Port}
    (h : s.turns = p :: rest) : pickPort s = some (p, { s with turns := rest }) := by
  simp only [pickPort, hpp, hcp, h]

/-- With no turn named, a draw names one. -/
theorem pickPort_of_draw (hpp : portReady s .pp = true) (hcp : portReady s .cp = true) (h : s.turns = []) :
    pickPort s = some (if Config.ppFirst s.draws then .pp else .cp, { s with draws := s.draws + 1 }) := by
  simp only [pickPort, hpp, hcp, h]

/-- Settles O5: the four cases of which ports can move are the four branches of the choice. -/
theorem eitherReadyPortMayMove : Obligations.EitherReadyPortMayMove := fun _ =>
  ⟨fun _ => portReady_eq_true_iff, fun _ => pickPort_of_one,
    fun hpp hcp => ⟨fun _ _ => pickPort_of_turn hpp hcp, fun h => ⟨_, pickPort_of_draw hpp hcp h⟩⟩, pickPort_eq_none⟩

/-! ### The command that runs -/

/-- A served port whose bytes begin with a command of its own runs it, its bytes off the port (R57; log 5). -/
theorem Serves.nextMove_of_decode (hs : Serves s p t) (hp : p = .cp → s.poppend = false) {i : Instr} {rest : List Byte}
    (hd : Sys2Proof.decode (s.portIn p) = .ok (i, rest)) (hi : i.port = p) :
    Machine.nextMove s = .run i (t.setPortIn p rest) := by
  rw [hs.nextMove, admission_of_no_pop (hs.poppend ▸ hp), hs.portIn, hd]
  exact if_pos hi

/-- Settles O4: the next move runs the command on the state with the choice made and the bytes taken. -/
theorem stepRunsDecodedCommand : Obligations.StepRunsDecodedCommand := by
  intro s t p i rest hs hp hd hi
  rw [step, hs.nextMove_of_decode hp hd hi]
  refine congrArg (exec i) ?_
  rw [hs.eq]
  cases p <;> rfl

/-! ### The bytes a step takes -/

/-- Settles O10: only a command that runs takes bytes, those that decode to it, and by `encodeOfDecode` they are its encoding. -/
theorem stepTakesOneCommand : Obligations.StepTakesOneCommand := by
  intro s t hr h
  obtain ⟨hr', -⟩ | ⟨-, -, hm⟩ | ⟨-, -, hm | hm⟩ | ⟨p, v, hs, ⟨-, -, hm⟩ | ⟨c, hm⟩ | ⟨i, rest, hd, hi, hm⟩⟩ :=
    nextMove_cases s
  · simp [hr] at hr'
  all_goals simp only [step, hm] at h
  · cases h
  · cases h; exact .inl ⟨rfl, rfl⟩
  · cases h
  · cases h
    have hkept (q : Port) : (popFinish v).portIn q = s.portIn q := by rw [popFinish_portIn, hs.portIn]
    exact .inl ⟨hkept .pp, hkept .cp⟩
  · cases h
    have hkept (q : Port) : (v.takeFault c).portIn q = s.portIn q := by rw [takeFault_portIn, hs.portIn]
    exact .inl ⟨hkept .pp, hkept .cp⟩
  · obtain ⟨hwf, hbytes⟩ := encodeOfDecode _ _ _ hd
    refine .inr ⟨p, i, hwf, hi, ?_, ?_⟩
    · rw [exec_portIn h, State.setPortIn_portIn, hbytes]
    · rw [exec_portIn h, State.setPortIn_portIn_other, hs.portIn]

/-! ### Reset -/

/-- Reset drops the pending bytes and clears its own request (log 7), so the block is idle after it. -/
theorem step_takeReset (s : State) : step s.takeReset = .next s.takeReset :=
  idleBlockKeepsState s.takeReset rfl rfl rfl rfl rfl

/-- Settles O15: the reset state is the one named, and the block is idle in it. -/
theorem resetDropsPendingBytes : Obligations.ResetDropsPendingBytes := fun s hr =>
  ⟨s.takeReset, step_of_rst hr, rfl, rfl, rfl, rfl, rfl, rfl, rfl, step_takeReset s⟩

end Sys2Proof.Machine
end

section
/-! The CRC engine against the bit-serial one, one changed byte, and the checksum of a built frame (spec 40_crc.md R67 to R76;
42_parser.md R116, R118). -/

namespace Sys2Proof.Machine

/-! ### The bit-serial engine (R3, R67) -/

/-- A fold that ignores the list's elements repeats its step. -/
theorem foldl_range_eq_repeat {α : Type} (f : α → α) (n : Nat) (a : α) :
    (List.range n).foldl (fun a _ => f a) a = Nat.repeat f n a := by
  induction n with
  | zero => rfl
  | succ n ih => rw [List.range_succ, List.foldl_append, ih]; rfl

/-- A byte taken bit by bit is eight iterations of R67, which is one read of the table. -/
theorem bitSerialStep_eq_crcStep : bitSerialStep = crcStep crcTable := by
  funext c b
  rw [crcStep_crcTable]
  exact foldl_range_eq_repeat crcShift 8 _

/-- Settles O21: the two engines take each byte to the same register. -/
theorem tableEngineEqualsBitSerialEngine : Obligations.TableEngineEqualsBitSerialEngine := by
  intro d
  rw [bitSerialCrc, bitSerialStep_eq_crcStep]
  rfl

/-! ### One changed byte -/

/-- The final invert loses nothing of the register. -/
theorem crcConcat_eq_iff (tbl : Vector Word 256) (p : Word) (x y : List Byte) :
    crcConcat tbl p x = crcConcat tbl p y ↔
      crcRun tbl (p ^^^ 0xFFFFFFFF#32) x = crcRun tbl (p ^^^ 0xFFFFFFFF#32) y := by
  rw [crcConcat, crcConcat, BitVec.xor_left_inj]

/-- Settles O25: the two bytes leave two registers, and the bytes after them keep the registers apart. -/
theorem oneChangedByteChangesChecksum : Obligations.OneChangedByteChangesChecksum := by
  intro p x y b c hbc h
  rw [crcConcat_eq_iff, crcRun_append, crcRun_append] at h
  exact crcStep_ne _ b c hbc (crcRun_inj y _ _ h)

/-- The same for a checksum from scratch. -/
theorem crcCompute_ne_of_one_byte (x y : List Byte) {b c : Byte} (h : b ≠ c) :
    crcCompute crcTable (x ++ b :: y) ≠ crcCompute crcTable (x ++ c :: y) := by
  simp only [crcCompute_eq_crcConcat_zero]
  exact oneChangedByteChangesChecksum 0#32 x y b c h

/-! ### A built frame -/

/-- A range with its LE32 checksum behind it passes CRC_VERIFY's test (R76). -/
theorem crcVerifies_append_le32 (tbl : Vector Word 256) (d : List Byte) :
    crcVerifies tbl (d ++ le32 (crcCompute tbl d)) = true := by
  simp [crcVerifies_iff]

/-- Settles O27: without its preamble a built frame is its body and the body's checksum. -/
theorem builtFramePassesVerify : Obligations.BuiltFramePassesVerify := by
  intro s dst src d hc hp
  have hpre : s.pre.toList.length = 4 := by simp
  rw [exec_crcVerify_of_crcv hc, buildFrame_eq_frameBody hp, List.drop_left' hpre, frameBody, crcVerifies_append_le32]
  rfl

/-- Settles O47: P_SEND appends the frame that P_BUILD returns, behind the same guard. -/
theorem sendAppendsFrameToTx : Obligations.SendAppendsFrameToTx := by
  intro s dst src d hp n body
  refine ⟨fun hc => ?_, fun hc hf => finish_requireCrc_of_false hc hf _, rfl, rfl⟩
  have hframe : buildFrame s dst src d = s.pre.toList ++ body ++ le32 (crcCompute s.tbl body) := buildFrame_eq s hp dst src d
  rw [← hframe]
  exact finish_requireCrc_of_true hc _

end Sys2Proof.Machine
end

section
/-! What the queue holds (spec 41_queue.md R92 to R99; 70_reset_and_hazards.md R147, R148): the counts, first in first out, Q_CLEAR,
and the producer between two consumer commands. -/

namespace Sys2Proof.Machine

variable {s t : State}

/-! ### The counts (R98) -/

/-- In a good state the queue is empty exactly when it holds no Message: the distance of the indices is 0 exactly when they are
equal, and a full queue holds at least one. -/
theorem isEmpty_iff_used_eq_zero (h : s.Inv) (hc : s.qcap ≠ 0#16) : s.isEmpty = true ↔ s.used = 0 := by
  obtain ⟨-, hrd, hwr⟩ := h.indices_of_ne hc
  rw [isEmpty_iff]
  refine ⟨fun ⟨hf, he⟩ => used_eq_zero_of_eq hf he, fun hu => ?_⟩
  cases hf : s.qfull with
  | true =>
    rw [used_of_full hf] at hu
    exact absurd hu (qcap_pos hc).ne'
  | false =>
    rw [used_of_not_full hf, ring_distance hrd hwr] at hu
    refine ⟨rfl, BitVec.eq_of_toNat_eq ?_⟩
    split at hu <;> omega

/-- QFULL says that the queue holds as many Messages as its capacity. -/
theorem qfull_iff_used_eq_qcap (hc : s.qcap ≠ 0#16) : s.qfull = true ↔ s.used = s.qcap.toNat := by
  refine ⟨used_of_full, fun hu => ?_⟩
  by_contra hf
  rw [used_of_not_full (eq_false_of_ne_true hf)] at hu
  exact absurd hu (Nat.mod_lt _ (qcap_pos hc)).ne

/-- Settles O36: Used is at most QCAP, Free is the rest of it, and the two ends of the range are Empty and QFULL. -/
theorem queueCountsAreConsistent : Obligations.QueueCountsAreConsistent := fun _ h hc _ =>
  ⟨used_le_qcap hc, Nat.add_sub_cancel' (used_le_qcap hc), isEmpty_iff_used_eq_zero h hc, qfull_iff_used_eq_qcap hc,
    fun hf m => queuePush_of_full m hc hf⟩

/-! ### First in, first out (R99) -/

/-- The state after a push that found room (R87). -/
def pushed (s : State) (m : Message) : State :=
  { s with
    slots := s.slots.set s.qwr.toNat m, qwr := advance s.qwr s.qcap,
    qfull := s.qrd == advance s.qwr s.qcap, draws := s.draws + 1 }

theorem exec_qPush_of_room {d : List Byte} (hd : d.length ≤ s.params.maxPayload) (hc : s.qcap ≠ 0#16)
    (hf : s.qfull = false) (src : Byte) :
    exec (.qPush src d) s = .next ((pushed s (makeMessage s src (lenC d) d)).respond .pp .ok 0#32 []) := by
  rw [exec_qPush_of_fits hd, queuePush_of_room _ hc hf]
  rfl

theorem exec_qPush_of_full {d : List Byte} (hd : d.length ≤ s.params.maxPayload) (hc : s.qcap ≠ 0#16)
    (hf : s.qfull = true) (src : Byte) : exec (.qPush src d) s = .next (s.respond .pp .ok 0#32 []) := by
  rw [exec_qPush_of_fits hd, queuePush_of_full _ hc hf]
  rfl

/-- The state of the queue after a pop with POP_SPLIT = 0 (R89). -/
def popped (s : State) : State := { s with qrd := advance s.qrd s.qcap, qfull := false }

theorem exec_qPop_eq_popped (hc : s.qcap ≠ 0#16) (he : s.isEmpty = false) (hs : s.params.popSplit = false) :
    exec .qPop s = .next ((popped s).respond .cp .ok 0#32 (s.slotRead s.qrd).view) := exec_qPop_of_whole hc he hs

/-- In a good state with a queue that is not empty a pop takes one Message, and every other is one place nearer. -/
theorem State.Inv.used_popped (h : s.Inv) (hc : s.qcap ≠ 0#16) (he : s.isEmpty = false) (hp : s.poppend = false) :
    (popped s).used + 1 = s.used ∧ ∀ k, (popped s).slotIndex k = s.slotIndex (k + 1) := by
  obtain ⟨-, hrd, hwr⟩ := h.indices_of_ne hc
  exact used_pop hc hrd hwr (fun hf => h.full hf hp) he

/-- The oldest Message stands in the slot at QRD, and a pop leaves the others in their order. -/
theorem State.Inv.queue_eq_cons (h : s.Inv) (hc : s.qcap ≠ 0#16) (he : s.isEmpty = false) (hp : s.poppend = false) :
    s.queue = s.slotRead s.qrd :: (popped s).queue := by
  obtain ⟨-, hrd, -⟩ := h.indices_of_ne hc
  obtain ⟨hused, hindex⟩ := h.used_popped hc he hp
  have hfirst : BitVec.ofNat 16 (s.slotIndex 0) = s.qrd := by
    rw [State.slotIndex, Nat.add_zero, Nat.mod_eq_of_lt hrd, BitVec.ofNat_toNat, BitVec.setWidth_eq]
  rw [State.queue, ← hused, List.range_succ_eq_map, List.map_cons, List.map_map, hfirst, State.queue]
  refine congrArg _ (List.map_congr_left fun k _ => ?_)
  rw [hindex]
  rfl

/-- A queue that holds a Message is not empty. -/
theorem isEmpty_of_queue_eq_cons (h : s.Inv) (hc : s.qcap ≠ 0#16) {m : Message} {rest : List Message}
    (hq : s.queue = m :: rest) : s.isEmpty = false := by
  rw [← Bool.not_eq_true, isEmpty_iff_used_eq_zero h hc]
  intro hu
  simp [State.queue, hu] at hq

/-- Q_POP returns as many payload bytes as were pushed, and those (R88, R89). -/
theorem makeMessage_view (s : State) (src : Byte) {d : List Byte} (hd : d.length ≤ 255) :
    (makeMessage s src (lenC d) d).view = src :: lenC d :: d := by
  have htake : (d ++ freeTail s.draws (s.params.maxPayload - d.length)).take d.length = d := List.take_left' rfl
  simp only [Message.view, makeMessage, lenC_toNat hd, htake]

/-- Settles O37: a push that finds room appends, one that does not changes nothing, and a pop takes the head. -/
theorem queueIsFirstInFirstOut : Obligations.QueueIsFirstInFirstOut := by
  intro s h hc hp
  obtain ⟨hcap, hrd, hwr⟩ := h.indices_of_ne hc
  refine ⟨fun src d hd hf => ?_, fun src d hd hf => ?_, fun m rest hs hq => ?_⟩
  · exact ⟨_, makeMessage s src (lenC d) d, exec_qPush_of_room hd hc hf src,
      by rw [State.respond_queue, pushed, queue_push hc (h.slots.symm ▸ hcap) hrd hwr hf],
      makeMessage_view s src (hd.trans h.params.1)⟩
  · exact ⟨_, exec_qPush_of_full hd hc hf src, State.respond_queue ..⟩
  · have he := isEmpty_of_queue_eq_cons h hc hq
    obtain ⟨hm, hrest⟩ := List.cons.inj ((h.queue_eq_cons hc he hp).symm.trans hq)
    exact ⟨_, exec_qPop_eq_popped hc he hs, by rw [State.respond_queue, hrest], by rw [hm]; rfl⟩

/-! ### Q_CLEAR (R97) -/

theorem exec_qClear_of_ne (hc : s.qcap ≠ 0#16) :
    exec .qClear s = .next ({ s with qrd := s.qwr, qfull := false }.respond .cp .ok 0#32 []) :=
  finish_requireQueue_of_ne hc _

/-- An empty queue is as Q_CLEAR leaves it. -/
theorem cleared_of_isEmpty (he : s.isEmpty = true) : ({ s with qrd := s.qwr, qfull := false } : State) = s := by
  obtain ⟨hf, hr⟩ := isEmpty_iff.mp he
  have hsame : ∀ r f, r = s.qrd → f = s.qfull → ({ s with qrd := r, qfull := f } : State) = s := by
    rintro _ _ rfl rfl
    rfl
  exact hsame _ _ hr.symm hf.symm

/-- Settles O33: the one write of Q_CLEAR, which an empty queue already meets, behind R91's guard. -/
theorem clearDiscardsAll : Obligations.ClearDiscardsAll := fun s =>
  ⟨exec_qClear_of_ne,
    fun hc hf hr => by rw [exec_qClear_of_ne hc, cleared_of_isEmpty (isEmpty_iff.mpr ⟨hf, hr⟩)],
    exec_of_no_queue (by decide), rfl, rfl⟩

/-- The state after Q_CLEAR, with any record of the consumer port's responses. -/
def clearedWith (s : State) (responses : List Response) : State :=
  { s with qrd := s.qwr, qfull := false, cpResp := responses }

/-- Popping every Message ends where Q_CLEAR ends, but for the responses: each pop advances QRD by one of the Used(S) places to
QWR. -/
theorem popTimes_eq_clearedWith {n : Nat} (h : s.Inv) (hc : s.qcap ≠ 0#16) (hs : s.params.popSplit = false)
    (hn : s.used = n) : ∃ r, popTimes n s = .next (clearedWith s r) := by
  induction n generalizing s with
  | zero =>
    refine ⟨s.cpResp, congrArg _ ?_⟩
    exact (cleared_of_isEmpty ((isEmpty_iff_used_eq_zero h hc).mpr hn)).symm
  | succ n ih =>
    have hp := h.poppend_of_whole hs
    have he : s.isEmpty = false := by
      rw [← Bool.not_eq_true, isEmpty_iff_used_eq_zero h hc]
      omega
    have hused := (h.used_popped hc he hp).1
    have hpop := exec_qPop_eq_popped hc he hs
    obtain ⟨r, hr⟩ := ih (inv_exec h (fun _ => hp) hpop) hc hs (by rw [State.respond_used]; omega)
    exact ⟨r, by rw [popTimes, hpop]; exact hr⟩

/-- Settles O34: the two end states differ in the record of responses alone. -/
theorem clearEqualsPoppingAll : Obligations.ClearEqualsPoppingAll := by
  intro s h hc hs
  obtain ⟨r, hr⟩ := popTimes_eq_clearedWith h hc hs rfl
  exact ⟨_, _, hr, exec_qClear_of_ne hc, rfl⟩

/-! ### The producer between two consumer commands (R147, R148) -/

/-- After a push that found room the queue is not empty: where QWR has met QRD, QFULL says so. -/
theorem isEmpty_pushed (s : State) (m : Message) : (pushed s m).isEmpty = false := by
  simp [State.isEmpty, pushed]

/-- The producer port writes no capacity, and what it writes to the queue is a push. -/
theorem Written.producer_keeps_nonempty {i : Instr} {u : State} (h : Written i s u) (hi : i.port = .pp)
    (he : s.isEmpty = false) : u.qcap = s.qcap ∧ u.isEmpty = false := by
  cases h with
  | nothing => exact ⟨rfl, he⟩
  | push src d => exact ⟨rfl, isEmpty_pushed s _⟩
  | feed b _ _ hb =>
    obtain h | ⟨-, -, -, -, -, -, h⟩ := feedByte_cases hb
    · rw [h]; exact ⟨rfl, he⟩
    · rw [h]; exact ⟨rfl, isEmpty_pushed (parserRestart (withChk b s)) _⟩
  | _ => cases hi

theorem exec_producer_keeps_nonempty {i : Instr} (h : exec i s = .next t) (hi : i.port = .pp) (he : s.isEmpty = false) :
    t.qcap = s.qcap ∧ t.isEmpty = false := by
  obtain ⟨c, rfl⟩ | ⟨rfl, -⟩ | ⟨u, st, r, d, hw, rfl, -⟩ := exec_cases h
  · simpa [State.isEmpty] using he
  · cases hi
  · simpa using hw.producer_keeps_nonempty hi he

/-- Settles O38: the producer only pushes, and on a queue that is not empty Q_ISEMPTY responds 0 and Q_POP returns a Message. -/
theorem producerNeverEmptiesQueue : Obligations.ProducerNeverEmptiesQueue := by
  refine ⟨fun i s t hi h hc he => ?_, fun s hc he => ⟨?_, fun hs => ?_⟩⟩
  · obtain ⟨hcap, hne⟩ := exec_producer_keeps_nonempty h hi he
    exact ⟨hcap ▸ hc, hne⟩
  · have hres : boolWord s.isEmpty = 0#32 := by rw [he]; rfl
    rw [← hres]
    exact finish_requireQueue_of_ne hc _
  · exact ⟨_, _, exec_qPop_eq_popped hc he hs, rfl, by simp [Message.view]⟩

/-- A full queue is not empty (R92). -/
theorem isEmpty_of_full (h : s.qfull = true) : s.isEmpty = false := by simp [State.isEmpty, h]

/-- Settles O39: step 1 leaves QFULL at 1, and QFULL alone decides that a push is dropped. -/
theorem pushDuringSplitPopIsDropped : Obligations.PushDuringSplitPopIsDropped := by
  intro s src d hs hc hf hd
  exact ⟨_, _, exec_qPop_of_split hc (isEmpty_of_full hf) hs, rfl, hf, rfl,
    exec_qPush_of_full (s := { popAdvance s with popHeld := some (s.slotRead s.qrd) }) hd hc hf src⟩

end Sys2Proof.Machine
end

section
/-! Reception after boot (spec 42_parser.md R111 to R114, R122; 70_reset_and_hazards.md R139, R142): no byte raises a fault, a frame
ends where its size byte says, and a corrupted one delivers nothing. -/

namespace Sys2Proof.Machine

variable {s t u : State} {b : Byte}

/-! ### No fault after boot (R139, R142) -/

/-- With the table and a queue there, no byte raises a fault: Verify has no other check. -/
theorem feedByte_of_boot (hc : s.crcv = true) (hq : s.qcap ≠ 0#16) (b : Byte) : ∃ u, feedByte b s = .ok u := by
  cases hb : feedByte b s with
  | ok u => exact ⟨u, rfl⟩
  | error c =>
    obtain ⟨-, -, hv⟩ := feedByte_error hb
    obtain ⟨hno, -⟩ | ⟨-, -, hno, -⟩ := verify_error hv
    · exact absurd (hc.symm.trans hno) (by simp)
    · exact absurd hno hq

/-- A command writes CRCV as 1 alone and QCAP as no 0 (R140). -/
theorem Written.keeps_boot {i : Instr} (h : Written i s u) (hc : s.crcv = true) (hq : s.qcap ≠ 0#16) :
    u.crcv = true ∧ u.qcap ≠ 0#16 := by
  cases h with
  | crcInit => exact ⟨rfl, hq⟩
  | create n _ h0 => exact ⟨hc, h0⟩
  | feed b _ _ hb => rw [feedByte_frame hb]; exact ⟨hc, hq⟩
  | _ => exact ⟨hc, hq⟩

theorem exec_keeps_boot {i : Instr} (h : exec i s = .next t) (hc : s.crcv = true) (hq : s.qcap ≠ 0#16) :
    t.crcv = true ∧ t.qcap ≠ 0#16 := by
  obtain ⟨c, rfl⟩ | ⟨-, -, -, -, rfl⟩ | ⟨u, st, r, d, hw, rfl, -⟩ := exec_cases h
  · simpa using ⟨hc, hq⟩
  · exact ⟨hc, hq⟩
  · simpa using hw.keeps_boot hc hq

/-- Each byte is answered and leaves FAULT alone. -/
theorem exec_feed_of_boot (hc : s.crcv = true) (hq : s.qcap ≠ 0#16) (b : Byte) :
    ∃ t, exec (.feed b) s = .next t ∧ t.fault = s.fault ∧ t.ppResp.length = s.ppResp.length + 1 := by
  obtain ⟨u, hu⟩ := feedByte_of_boot hc hq b
  refine ⟨_, exec_feed_of_ok hu, ?_⟩
  rw [feedByte_frame hu]
  simp

/-- So is a byte sequence. -/
theorem feedAll_of_boot (hc : s.crcv = true) (hq : s.qcap ≠ 0#16) (bs : List Byte) :
    ∃ t, feedAll bs s = .next t ∧ t.fault = s.fault ∧ t.ppResp.length = s.ppResp.length + bs.length := by
  induction bs generalizing s with
  | nil => exact ⟨s, rfl, rfl, rfl⟩
  | cons b bs ih =>
    obtain ⟨u, hu, hufault, huresp⟩ := exec_feed_of_boot hc hq b
    obtain ⟨huc, huq⟩ := exec_keeps_boot hu hc hq
    obtain ⟨t, ht, htfault, htresp⟩ := ih huc huq
    refine ⟨t, by rw [feedAll, hu]; exact ht, htfault.trans hufault, ?_⟩
    rw [htresp, huresp, List.length_cons]
    omega

/-- Settles O58: the two checks of reception hold after boot, and no command undoes what they ask for. -/
theorem receptionNeverFaultsAfterBoot : Obligations.ReceptionNeverFaultsAfterBoot := fun _ hc hq =>
  ⟨feedAll_of_boot hc hq, fun _ _ h => exec_keeps_boot h hc hq⟩

/-! ### A frame ends where its size byte says (R113, R114) -/

/-- The states in which reception raises no fault and keeps OFF in its range. -/
structure Receiving (s : State) : Prop where
  inv : s.Inv
  crcv : s.crcv = true
  qcap : s.qcap ≠ 0#16

theorem Receiving.exec_feed (h : Receiving s) (he : exec (.feed b) s = .next t) : Receiving t := by
  obtain ⟨hc, hq⟩ := exec_keeps_boot he h.crcv h.qcap
  exact ⟨inv_exec (i := .feed b) h.inv nofun he, hc, hq⟩

/-- Reception of `bs` ends a frame, and no first part of `bs` does. -/
structure EndsFrame (bs : List Byte) (s : State) : Prop where
  ends : ∃ t, feedAll bs s = .next t ∧ t.stage = .pre ∧ t.off = 0#8
  inside : ∀ k < bs.length, ∃ u, feedAll (bs.take k) s = .next u ∧ u.stage ≠ .pre

theorem EndsFrame.nil (hst : s.stage = .pre) (hoff : s.off = 0#8) : EndsFrame [] s :=
  ⟨⟨s, rfl, hst, hoff⟩, nofun⟩

/-- One byte before the rest of a frame. -/
theorem EndsFrame.cons {bs : List Byte} (hst : s.stage ≠ .pre) (he : exec (.feed b) s = .next t) (h : EndsFrame bs t) :
    EndsFrame (b :: bs) s := by
  have hfirst (x : List Byte) : feedAll (b :: x) s = feedAll x t := by rw [feedAll, he]
  refine ⟨by rw [hfirst]; exact h.ends, fun k hk => ?_⟩
  cases k with
  | zero => exact ⟨s, rfl, hst⟩
  | succ k =>
    rw [List.take_succ_cons, hfirst]
    exact h.inside k (Nat.lt_of_succ_lt_succ hk)

/-- How many bytes of the frame are left once its size is known; 0 when the parser is back in stage PRE. -/
def BytesLeft (s : State) (k : Nat) : Prop :=
  match s.stage with
  | .pay => k = s.fb.size.toNat - s.off.toNat + 4
  | .chk => k = 4 - s.off.toNat
  | .pre => k = 0 ∧ s.off = 0#8
  | _ => False

/-- A byte of the payload is one of the bytes left (R109). -/
theorem bytesLeft_of_pay (h : s.Inv) (hst : s.stage = .pay) (b : Byte) {k : Nat} (hk : BytesLeft s (k + 1)) :
    BytesLeft ((feedPay b s).respond .pp .ok 0#32 []) k := by
  have hoff : s.off.toNat < s.fb.size.toNat := by
    have := h.parser
    simp only [parserInRange, hst] at this
    exact this.1
  have hsize := s.fb.size.isLt
  have hnext : s.off + 1#8 = s.fb.size ↔ s.off.toNat + 1 = s.fb.size.toNat := add_one_eq_iff (by omega)
  simp only [BytesLeft, hst] at hk
  rw [feedPay_eq, hst]
  by_cases hlast : s.off + 1#8 = s.fb.size
  · have := hnext.mp hlast
    simp only [BytesLeft, State.respond_stage, State.respond_off, if_pos hlast, BitVec.toNat_ofNat]
    omega
  · have hsucc : (s.off + 1#8).toNat = s.off.toNat + 1 := by bv_omega
    simp only [BytesLeft, State.respond_stage, State.respond_fb, State.respond_off, if_neg hlast, hsucc]
    omega

/-- A checksum byte before the fourth is one of the bytes left (R110). -/
theorem bytesLeft_of_chk (hst : s.stage = .chk) (hoff : s.off.toNat < 3) (b : Byte) {k : Nat} (hk : BytesLeft s (k + 1)) :
    BytesLeft ((withChk b s).respond .pp .ok 0#32 []) k := by
  have hsucc : (s.off + 1#8).toNat = s.off.toNat + 1 := by bv_omega
  simp only [BytesLeft, hst] at hk
  simp only [BytesLeft, State.respond_stage, State.respond_off, withChk, hst, hsucc]
  omega

/-- However Verify ends without a fault, the parser is back in stage PRE (R113). -/
theorem verify_restarts (h : verify s = .ok u) : u.stage = .pre ∧ u.off = 0#8 := by
  obtain ⟨-, ⟨-, rfl⟩ | ⟨-, -, -, rfl⟩⟩ := verify_cases h <;> exact ⟨rfl, rfl⟩

/-- While bytes of the frame are left, each byte received is one of them, whatever it is. -/
theorem Receiving.exec_feed_bytesLeft (h : Receiving s) (b : Byte) {k : Nat} (hk : BytesLeft s (k + 1)) :
    s.stage ≠ .pre ∧ ∃ t, exec (.feed b) s = .next t ∧ BytesLeft t k := by
  cases hst : s.stage with
  | pre => simp [BytesLeft, hst] at hk
  | addr => simp [BytesLeft, hst] at hk
  | size => simp [BytesLeft, hst] at hk
  | pay => exact ⟨nofun, _, exec_feed_of_pay b hst, bytesLeft_of_pay h.inv hst b hk⟩
  | chk =>
    refine ⟨nofun, ?_⟩
    have hoff : s.off.toNat ≤ 3 := by
      have := h.inv.parser
      simp only [parserInRange, hst] at this
      exact this.1
    by_cases hlt : s.off.toNat < 3
    · exact ⟨_, exec_feed_of_chk_lt b hst hlt, bytesLeft_of_chk hst hlt b hk⟩
    · have h3 : s.off = 3#8 := by bv_omega
      obtain ⟨u, hu⟩ := feedByte_of_boot h.crcv h.qcap b
      have hverify : verify (withChk b s) = .ok u := by
        rw [← hu]
        simp only [feedByte, hst, feedChk_eq, h3]
        rfl
      obtain ⟨hust, huoff⟩ := verify_restarts hverify
      refine ⟨_, exec_feed_of_ok hu, ?_⟩
      simp only [BytesLeft, hst, h3] at hk
      simp only [BytesLeft, State.respond_stage, State.respond_off, hust, huoff, and_true]
      exact Nat.succ.inj hk

/-- So reception of as many bytes as are left ends the frame. -/
theorem Receiving.endsFrame {bs : List Byte} (h : Receiving s) (hk : BytesLeft s bs.length) : EndsFrame bs s := by
  induction bs generalizing s with
  | nil =>
    have hpre : s.stage = .pre ∧ s.off = 0#8 := by
      have hr := h.inv.parser
      cases hst : s.stage <;> simp only [BytesLeft, parserInRange, hst, List.length_nil] at hk hr
      case pre => exact ⟨rfl, hk.2⟩
      case pay => omega
      case chk => omega
    exact .nil hpre.1 hpre.2
  | cons b bs ih =>
    obtain ⟨hst, t, he, ht⟩ := h.exec_feed_bytesLeft b hk
    exact .cons hst he (ih (h.exec_feed he) ht)

/-- The size byte sets how many bytes are left: its clamped value and the checksum (R108). -/
theorem bytesLeft_of_size (b : Byte) (s : State) :
    BytesLeft ((feedSize b s).respond .pp .ok 0#32 []) (min b.toNat s.params.maxPayload + 4) := by
  have hn := toNat_clamped s b
  by_cases h0 : BitVec.ofNat 8 (clamp s b.toNat) = 0#8
  · rw [h0] at hn
    simp only [BytesLeft, State.respond_stage, feedSize, h0, if_true, State.respond_off, ← hn]
    rfl
  · simp only [BytesLeft, State.respond_stage, feedSize, h0, if_false, State.respond_off, State.respond_fb, hn]
    rfl

/-- Settles O52: two address bytes, the size byte, and then the bytes that are left. -/
theorem frameEndsAfterAnnouncedLength : Obligations.FrameEndsAfterAnnouncedLength := by
  intro s bs size hinv hc hq hst hoff hsize hlen
  match bs with
  | dst :: src :: n :: rest =>
    obtain rfl : n = size := by simpa using hsize
    have hrest : rest.length = min n.toNat s.params.maxPayload + 4 := by
      simp only [List.length_cons] at hlen
      omega
    have hrecv : Receiving s := ⟨hinv, hc, hq⟩
    have hdst := exec_feed_of_addr dst hst
    set u := (feedAddr dst s).respond .pp .ok 0#32 [] with hu
    have hust : u.stage = .addr := by simp [hu, feedAddr_eq, hst, hoff]
    have hsrc := exec_feed_of_addr src hust
    set v := (feedAddr src u).respond .pp .ok 0#32 [] with hv
    have hvst : v.stage = .size := by simp [hv, hu, feedAddr_eq, hoff]
    have hvparams : v.params = s.params := by simp [hv, hu, feedAddr_eq]
    have hn := exec_feed_of_size n hvst
    have hleft := bytesLeft_of_size n v
    rw [hvparams, ← hrest] at hleft
    have hframe : EndsFrame (dst :: src :: n :: rest) s :=
      .cons (by simp [hst]) hdst <| .cons (by simp [hust]) hsrc <| .cons (by simp [hvst]) hn <|
        (((hrecv.exec_feed hdst).exec_feed hsrc).exec_feed hn).endsFrame hleft
    exact ⟨hframe.ends, hframe.inside⟩

/-! ### A corrupted frame (R111, R122) -/

/-- A frame whose checksum bytes are not its checksum is received quietly: Verify discards it, and the parser restarts. -/
theorem quietRun_discarded (hinv : s.Inv) (hc : s.crcv = true) (hst : s.stage = .addr) (hoff : s.off = 0#8) {dst src n : Byte}
    {p chk : List Byte} (hp : p.length = n.toNat) (hn : n.toNat ≤ s.params.maxPayload) (h4 : chk.length = 4)
    (hbad : crcCompute s.tbl ([dst, src, n] ++ p) ≠ fromLE32 chk) :
    ∃ t, QuietRun ([dst, src, n] ++ p ++ chk) s t ∧ t.stage = .pre ∧ t.off = 0#8 := by
  match chk, h4 with
  | [c0, c1, c2, c3], _ =>
    obtain ⟨u, hframe, hust, huoff, hfb⟩ := quietRun_frame hinv hst hoff dst src hp hn
    obtain ⟨v, hchk, hvst, hvoff, hvfb, h0, h1, h2⟩ := quietRun_checksum hust huoff c0 c1 c2
    have hrun := hframe.append hchk
    have hheld : HoldsFrame v.fb dst src n p := by
      rw [hvfb]
      exact ⟨hfb.dst, hfb.src, hfb.size, hfb.payload⟩
    have hmismatch : checksumMatches (withChk c3 v) = false := by
      rw [← Bool.not_eq_true, checksumMatches_withChk c3 hvoff, hheld.frameCrc_eq, h0, h1, h2, hrun.2.1.tbl]
      exact hbad
    have hlast : feedByte c3 v = .ok (parserRestart (withChk c3 v)) := by
      rw [← verify_of_mismatch (s := withChk c3 v) (hrun.2.1.crcv.trans hc) hmismatch]
      simp only [feedByte, hvst, feedChk_eq, hvoff]
      rfl
    refine ⟨(parserRestart (withChk c3 v)).respond .pp .ok 0#32 [], ?_, rfl, rfl⟩
    rw [show [dst, src, n] ++ p ++ [c0, c1, c2, c3] = [dst, src, n] ++ p ++ [c0, c1, c2] ++ [c3] by simp]
    exact hrun.append (.one hlast rfl)

/-- Bytes that are not those of a word do not stand for it. -/
theorem ne_fromLE32_of_ne {w : Word} {chk : List Byte} (h4 : chk.length = 4) (h : chk ≠ le32 w) : w ≠ fromLE32 chk := by
  match chk, h4 with
  | [a, b, c, d], _ =>
    rintro rfl
    exact h (le32_fromLE32 a b c d).symm

/-- Putting another byte in a place of a list changes the list. -/
theorem set_ne_of_getElem?_ne {α : Type} {l : List α} {k : Nat} {a : α} (hk : k < l.length) (h : l[k]? ≠ some a) :
    l.set k a ≠ l := by
  intro hset
  exact h (by rw [← hset, List.getElem?_set_self hk])

/-- One byte of a payload or of its checksum changed leaves a payload and a checksum of the same lengths that do not match: a
changed payload has another checksum (`oneChangedByteChangesChecksum`), and a changed checksum is another word. -/
theorem corrupted_mismatch (head : List Byte) {p : List Byte} {k : Nat} {b : Byte}
    (hk : k < p.length + 4) (hb : (p ++ le32 (crcCompute crcTable (head ++ p)))[k]? ≠ some b) :
    ∃ p' chk, (p ++ le32 (crcCompute crcTable (head ++ p))).set k b = p' ++ chk ∧ p'.length = p.length ∧ chk.length = 4 ∧
      crcCompute crcTable (head ++ p') ≠ fromLE32 chk := by
  by_cases hpay : k < p.length
  · refine ⟨p.set k b, _, List.set_append_left k b hpay, List.length_set, rfl, ?_⟩
    have hold : b ≠ p[k] := by
      rintro rfl
      exact hb (by rw [List.getElem?_append_left hpay, List.getElem?_eq_getElem hpay])
    have hsplit : head ++ p = head ++ p.take k ++ p[k] :: p.drop (k + 1) := by
      rw [List.append_assoc, List.cons_getElem_drop_succ, List.take_append_drop]
    rw [fromLE32_le32, List.set_eq_take_append_cons_drop, if_pos hpay, ← List.append_assoc, hsplit]
    exact crcCompute_ne_of_one_byte _ _ hold
  · refine ⟨p, _, List.set_append_right k b (Nat.not_lt.mp hpay), rfl, List.length_set, ?_⟩
    rw [List.getElem?_append_right (Nat.not_lt.mp hpay)] at hb
    exact ne_fromLE32_of_ne List.length_set (set_ne_of_getElem?_ne (by rw [le32_length]; omega) hb)

/-- A built frame with one byte of its payload or its checksum changed is the preamble, a header whose size fits, a payload of that
size, and four bytes that are not its checksum. -/
theorem buildFrame_corrupted (hp : s.params.Legal) (ht : s.tbl = crcTable) {dst src : Byte} {d : List Byte} {k : Nat} {b : Byte}
    (h7 : 7 ≤ k) (hk : k < (buildFrame s dst src d).length) (hb : (buildFrame s dst src d)[k]? ≠ some b) :
    ∃ n p chk, (buildFrame s dst src d).set k b = s.pre.toList ++ ([dst, src, n] ++ p ++ chk) ∧ p.length = n.toNat ∧
      n.toNat ≤ s.params.maxPayload ∧ chk.length = 4 ∧ crcCompute s.tbl ([dst, src, n] ++ p) ≠ fromLE32 chk := by
  have hn := toNat_truncated hp d.length
  have hframe := buildFrame_eq_frameBody hp dst src d
  set n : Byte := BitVec.ofNat 8 (min d.length s.params.maxPayload)
  set p := d.take (min d.length s.params.maxPayload) with hpay
  have hlen : p.length = n.toNat := by rw [hpay, hn, List.length_take]; omega
  have hhead : (s.pre.toList ++ [dst, src, n]).length = 7 := by simp
  rw [frameBody, List.append_assoc, ← List.append_assoc s.pre.toList, ht] at hframe
  rw [hframe, List.getElem?_append_right (by omega), hhead] at hb
  rw [hframe, List.length_append, hhead, List.length_append, le32_length] at hk
  obtain ⟨p', chk, hset, hp', h4, hbad⟩ := corrupted_mismatch [dst, src, n] (by omega) hb
  refine ⟨n, p', chk, ?_, hp'.trans hlen, by omega, h4, ht ▸ hbad⟩
  rw [hframe, List.set_append_right _ _ (by omega), hhead, hset]
  simp only [List.append_assoc]

/-- Settles O51: the preamble and the changed rest are both received quietly. -/
theorem corruptedFrameIsNotDelivered : Obligations.CorruptedFrameIsNotDelivered := by
  intro s dst src d k b hinv hc hst hoff f h7 hk hb
  obtain ⟨n, p, chk, hset, hp, hn, h4, hbad⟩ := buildFrame_corrupted hinv.params (hinv.table hc) h7 hk hb
  obtain ⟨u, hpre, hust, huoff, -⟩ := quietRun_preamble s hst hoff
  have ⟨hfound, huq, _⟩ := hpre
  obtain ⟨t, hrun, htst, htoff⟩ := quietRun_discarded (inv_feedAll hinv hfound) (huq.crcv.trans hc) hust huoff hp
    (huq.params ▸ hn) h4 (huq.tbl ▸ hbad)
  obtain ⟨hall, hq, -⟩ := hpre.append hrun
  exact ⟨t, hset ▸ hall, htst, htoff, hq.slots, hq.qrd, hq.qwr, hq.qfull, hq.fault⟩

end Sys2Proof.Machine
end
